-- ==== Sys2Proof/Word.lean ====
section
/-! DEFINITION. The plain types of the codec block: bits, bytes, command words (spec 00_scope R13, 30_encoding R60). -/

namespace Sys2Proof

/-- One bit (R13); `true` is 1. -/
abbrev Bit := Bool

/-- One byte of a byte sequence, 0..255 (R13). -/
abbrev Byte := BitVec 8

/-- A 32-bit register or command word; bit 0 is the least significant (R16, R60). -/
abbrev Word := BitVec 32

/-- The 5-bit syndrome (R88), the width of `STATUS.SYN` (R30). -/
abbrev Syndrome := BitVec 5

end Sys2Proof
end

