-- ==== Sys2Proof/Syntax.lean ====
section
/-! DEFINITION. The commands of the block: operand kinds (30_encoding R63) and one constructor per row of the
opcode table (R61, R72). A command carries the operand the host hands over with it (10_state R25; log 1). -/

namespace Sys2Proof

/-- The three operand kinds of R63. -/
inductive Kind where
  | bits
  | bytes
  | words
deriving DecidableEq, Repr

/-- A value of one of the three kinds: what `IN` carries (R63) and what `OUT` holds (10_state R32).
Its length travels with it. -/
inductive Value where
  /-- BITS: a bit sequence; index 0 is the first bit (00_scope R13). -/
  | bits (s : List Bit)
  /-- BYTES: a byte sequence. -/
  | bytes (b : List Byte)
  /-- WORDS: a list of bit sequences, each of any length. -/
  | words (w : List (List Bit))
deriving DecidableEq, Repr

/-- The kind of a value (R63). -/
def Value.kind : Value → Kind
  | .bits _ => .bits
  | .bytes _ => .bytes
  | .words _ => .words

/-- The commands, one constructor per row of spec/opcode_table.json, each with its operand `IN`. -/
inductive Instr where
  /-- ENCB, word 0x00000000 (40_codec R85). -/
  | encb (x : Value)
  /-- DECB, word 0x00000001 (40_codec R91). -/
  | decb (x : Value)
  /-- FRAME, word 0x00000002 (41_framer R100). -/
  | frame (x : Value)
  /-- UNFRAME, word 0x00000003 (41_framer R103). -/
  | unframe (x : Value)
  /-- ENCS, word 0x00000004 (42_stream R120). -/
  | encs (x : Value)
  /-- DECS, word 0x00000005 (42_stream R121). -/
  | decs (x : Value)
  /-- The reserved OP 110, word 0x00000006 (30_encoding R67). -/
  | reserved6 (x : Value)
  /-- The reserved OP 111, word 0x00000007 (30_encoding R67). -/
  | reserved7 (x : Value)
deriving DecidableEq, Repr

/-- The operand `IN` of a command. -/
def Instr.operand : Instr → Value
  | .encb x => x
  | .decb x => x
  | .frame x => x
  | .unframe x => x
  | .encs x => x
  | .decs x => x
  | .reserved6 x => x
  | .reserved7 x => x

end Sys2Proof
end

