-- ==== Sys2Proof/Decode.lean ====
section
/-! DEFINITION. Decoding of command words, total over all 2^32 words (30_encoding R60 to R62, R67 to R69, R73),
and the encoder. The operand is not encoded: it comes with the word (R63, R69). -/

namespace Sys2Proof

/-- `OP`, bits [2:0] of the command word (R60). -/
def opField (w : Word) : BitVec 3 :=
  w.extractLsb' 0 3

/-- `RSV`, bits [31:3] of the command word (R60). -/
def rsvField (w : Word) : BitVec 29 :=
  w.extractLsb' 3 29

/-- Why a word is no row of the opcode table. -/
inductive DecodeError where
  /-- `RSV` is not zero (R62). -/
  | reservedBits
deriving DecidableEq, Repr

/-- The OP table of R61; the last arm is OP 111, the only 3-bit value left. -/
def decodeOp (op : BitVec 3) (x : Value) : Instr :=
  match op.toNat with
  | 0 => .encb x
  | 1 => .decb x
  | 2 => .frame x
  | 3 => .unframe x
  | 4 => .encs x
  | 5 => .decs x
  | 6 => .reserved6 x
  | _ => .reserved7 x

/-- The first check and the case split of R73. The reserved OPs decode to the table's reserved rows; the kind
check of R73 is the first thing each command's meaning does. -/
def decode (w : Word) (x : Value) : Except DecodeError Instr :=
  if rsvField w ≠ 0 then .error .reservedBits else .ok (decodeOp (opField w) x)

/-- The command word and the operand of a command (R61). -/
def encode : Instr → Word × Value
  | .encb x => (0x00000000#32, x)
  | .decb x => (0x00000001#32, x)
  | .frame x => (0x00000002#32, x)
  | .unframe x => (0x00000003#32, x)
  | .encs x => (0x00000004#32, x)
  | .decs x => (0x00000005#32, x)
  | .reserved6 x => (0x00000006#32, x)
  | .reserved7 x => (0x00000007#32, x)

/-- The all-zero operand of the kind and least length with which the word's command completes. It stands in
where a word comes without an operand. DESIGN CHOICE (log 6). -/
def zeroOperand (w : Word) : Value :=
  match w.toNat with
  | 0 => .bits (List.replicate 26 false)
  | 1 => .bits (List.replicate 31 false)
  | 2 => .bytes []
  | 3 => .bits (List.replicate 32 false)
  | 4 => .bytes []
  | 5 => .words (List.replicate 2 (List.replicate 31 false))
  | _ => .bits []

/-- The 32-bit word whose low `nbits` bits are those of `w` and whose other bits are zero. -/
def tableWord (nbits w : Nat) : Word :=
  BitVec.ofNat 32 (w % 2 ^ nbits)

/-- The command the decoder reads from a table word with the all-zero operand; `none` where it rejects the word
or where the word does not fit in the command word's 32 bits (R60). -/
def decodeTableWord (nbits w : Nat) : Option Instr :=
  if w < 2 ^ nbits ∧ w < 2 ^ 32 then
    (decode (tableWord nbits w) (zeroOperand (tableWord nbits w))).toOption
  else none

end Sys2Proof
end

