-- ==== Sys2Proof/Config.lean ====
section
/-! DEFINITION. The implementation parameters of 00_scope R12. A model takes each as an argument, so they
are data, carried by the state and changed by no step (log 5). The fixed constants of R11 are in Machine/Positions. -/

namespace Sys2Proof

/-- The parameters of 00_scope R12. -/
structure Params where
  /-- `LANES`: how many encoder and decoder datapaths there are; not observable (20_memory R47). -/
  lanes : Nat
  /-- `MAX_LEN_BYTES`: the longest FRAME or ENCS operand, in bytes (20_memory R55). -/
  maxLenBytes : Nat
  /-- `MAX_DECODE_BITS`: the longest decode-side operand, in bits; `none` is the table's "unbounded". -/
  maxDecodeBits : Option Nat
deriving DecidableEq, Repr

/-- The ranges of the table of R12, the last column's "at least 26·⌈(32 + 8·MAX_LEN_BYTES)/26⌉" included. -/
abbrev Params.Legal (p : Params) : Prop :=
  1 ≤ p.lanes ∧ 1 ≤ p.maxLenBytes ∧ p.maxLenBytes ≤ 2 ^ 32 - 1 ∧
    ∀ m ∈ p.maxDecodeBits, 26 * ((32 + 8 * p.maxLenBytes + 25) / 26) ≤ m

/-- The defaults of R12. DESIGN CHOICE (log 5): R12 leaves `MAX_DECODE_BITS` open; it is unbounded here, as in
95_test_vectors. -/
def Params.default : Params :=
  { lanes := 1, maxLenBytes := 2 ^ 32 - 1, maxDecodeBits := none }

end Sys2Proof
end

