-- ==== Sys2Proof/Machine/State.lean ====
section
/-! DEFINITION. The state of the codec block (10_state R20, R37), the host's pending interactions (60_exceptions
R157), the trace (R152), the error kinds (R140), and the state after reset (70_reset R170). Plain data. -/

namespace Sys2Proof.Machine

/-- Reasons for the machine to stop: none. Every error of the spec is a status that the command leaves, after
which the block takes the next command (60_exceptions R145, R152). No constructor, so nothing raises one. -/
inductive Fault where
deriving DecidableEq, Repr

/-- Why a command has no meaning here. -/
inductive Refusal where
  /-- Raised by an arm of `exec` for a command not modelled yet; safe (the machine stops). No arm raises it. -/
  | notModelled (mnemonic : String)
deriving DecidableEq, Repr

/-- The error kinds of 60_exceptions R140 that have a code. -/
inductive ErrorKind where
  /-- An operand block or codeword of the wrong length (R141). -/
  | malformedWord
  /-- Too few bits for the header, or for the length it declares (R142). -/
  | framing
  /-- Never raised; its code is kept reserved (R143, 40_codec R96). -/
  | syndromeRange
  /-- Reserved bits set, reserved OP, or wrong operand kind (R144). -/
  | illegalCommand
  /-- An operand above `MAX_LEN_BYTES` or `MAX_DECODE_BITS` (R146). -/
  | lengthOverflow
deriving DecidableEq, Repr

/-- What a command that completes writes: the result, and the two status fields that vary (R27 to R30). -/
structure Completion where
  out : Value
  corr : Bool
  syn : Syndrome
deriving DecidableEq, Repr

/-- How a command ends: it completes, or it raises one error (R153). -/
abbrev CommandResult := Except ErrorKind Completion

/-- The three things the host can read (10_state R38). -/
inductive Port where
  | cmd
  | status
  | out
deriving DecidableEq, Repr

/-- What a read gives the host: a register's word, or what `OUT` holds (`none` is the spec's *none*). -/
inductive ReadValue where
  | word (w : Word)
  | result (o : Option Value)
deriving DecidableEq, Repr

/-- The host's interactions, the rows of the table of R157. -/
inductive HostAction where
  /-- `Issue(word, IN)` (10_state R25). -/
  | issue (word : Word) (operand : Value)
  /-- A read of `CMD`, `STATUS` or `OUT` (10_state R38). -/
  | read (port : Port)
  /-- The reset signal (70_reset R170). -/
  | reset
deriving DecidableEq, Repr

/-- What the host gets back from an interaction (the last column of R157). -/
inductive Event where
  /-- An `Issue` returned, with the word issued and the `STATUS` and `OUT` it left. -/
  | returned (word status : Word) (out : Option Value)
  /-- A read was answered. -/
  | answered (port : Port) (value : ReadValue)
  /-- The block was reset. -/
  | wasReset
deriving DecidableEq, Repr

/-- The state. `cmd`, `status` and `out` are the whole architectural state (10_state R20). The hardwired tables of
R34 are the constants `parityPos` and `dataPos`. `params`, `inbox` and `trace` are the model's (log 2, 4, 5). -/
structure State where
  /-- `CMD` (R24). -/
  cmd : Word
  /-- `STATUS` (R26). -/
  status : Word
  /-- `OUT` (R32); `none` is the spec's *none*. -/
  out : Option Value
  /-- The implementation parameters (00_scope R12); no step changes them. -/
  params : Params
  /-- The host's interactions that have not happened yet, oldest first. -/
  inbox : List HostAction
  /-- What the host got back so far, oldest first (60_exceptions R152). -/
  trace : List Event
deriving DecidableEq, Repr

/-- The block right after reset (10_state R37, 70_reset R170), with the given parameters. -/
def State.resetWith (p : Params) : State :=
  { cmd := 0x00000000#32, status := 0x00000000#32, out := none, params := p, inbox := [], trace := [] }

/-- The block right after reset, with the default parameters. -/
def State.reset : State :=
  State.resetWith Params.default

end Sys2Proof.Machine
end

