-- ==== Sys2Proof/Machine/Operands.lean ====
section
/-! DEFINITION. The three operand forms (30_encoding R63). An operand of another kind than the OP requires raises
ILLEGAL_COMMAND; the block does not convert (R64). -/

namespace Sys2Proof.Machine

/-- `IN` as a BITS operand. -/
def takeBits : Value → Except ErrorKind (List Bit)
  | .bits s => .ok s
  | .bytes _ => .error .illegalCommand
  | .words _ => .error .illegalCommand

/-- `IN` as a BYTES operand. -/
def takeBytes : Value → Except ErrorKind (List Byte)
  | .bytes b => .ok b
  | .bits _ => .error .illegalCommand
  | .words _ => .error .illegalCommand

/-- `IN` as a WORDS operand. -/
def takeWords : Value → Except ErrorKind (List (List Bit))
  | .words w => .ok w
  | .bits _ => .error .illegalCommand
  | .bytes _ => .error .illegalCommand

/-- A length is above a limit that is finite (41_framer R103, 42_stream R121). -/
def exceeds (limit : Option Nat) (n : Nat) : Bool :=
  limit.any (· < n)

end Sys2Proof.Machine
end

