-- ==== Sys2Proof/Machine/Flags.lean ====
section
/-! DEFINITION. The layout of STATUS (10_state R26 to R31) and the error codes (60_exceptions R140). -/

namespace Sys2Proof.Machine

/-- The code of each error kind in `STATUS.ERR` (R140). -/
def ErrorKind.code : ErrorKind → BitVec 3
  | .malformedWord => 0b001#3
  | .framing => 0b010#3
  | .syndromeRange => 0b011#3
  | .illegalCommand => 0b100#3
  | .lengthOverflow => 0b101#3

/-- `STATUS` from its fields: reserved [31:10] zero, SYN [9:5], CORR [4], VALID [3], ERR [2:0] (R26, R31). -/
def statusWord (err : BitVec 3) (valid corr : Bool) (syn : Syndrome) : Word :=
  err.setWidth 32 ||| (BitVec.ofBool valid).setWidth 32 <<< 3 ||| (BitVec.ofBool corr).setWidth 32 <<< 4 |||
    syn.setWidth 32 <<< 5

/-- `STATUS.ERR` (R27). -/
def errField (w : Word) : BitVec 3 :=
  w.extractLsb' 0 3

/-- `STATUS.VALID` (R28). -/
def validField (w : Word) : Bool :=
  w.getLsbD 3

/-- `STATUS.CORR` (R29). -/
def corrField (w : Word) : Bool :=
  w.getLsbD 4

/-- `STATUS.SYN` (R30). -/
def synField (w : Word) : Syndrome :=
  w.extractLsb' 5 5

/-- `STATUS[31:10]` (R31). -/
def reservedField (w : Word) : BitVec 22 :=
  w.extractLsb' 10 22

/-- The status of a command that completes: ERR = 000, VALID = 1 (R27, R28). -/
def completedStatus (corr : Bool) (syn : Syndrome) : Word :=
  statusWord 0b000#3 true corr syn

/-- The status of a command that raises `e`: VALID, CORR and SYN are 0 (R145). -/
def errorStatus (e : ErrorKind) : Word :=
  statusWord e.code false false 0#5

end Sys2Proof.Machine
end

