-- ==== Sys2Proof/Machine/Ops.lean ====
section
/-! DEFINITION. The operations over the registers that every command shares: completing (10_state R25 step 4),
raising an error (60_exceptions R145), issuing, reading and reset (60_exceptions R157). -/

namespace Sys2Proof.Machine

/-- Step 1 of `Issue`: `CMD <- word` (10_state R25). -/
def latchCommand (word : Word) (s : State) : State :=
  { s with cmd := word }

/-- A command completes: it writes `OUT` and all fields of `STATUS` (10_state R27 to R32). -/
def complete (c : Completion) (s : State) : State :=
  { s with out := some c.out, status := completedStatus c.corr c.syn }

/-- `raise E`, the whole of error entry (60_exceptions R145, R150): `CMD` keeps the word, `OUT` is *none*, nothing
is saved and control goes to no handler. There is no return from it (R152): the next command overwrites it. -/
def raiseError (e : ErrorKind) (s : State) : State :=
  { s with out := none, status := errorStatus e }

/-- The end of a command: its result, or its error. -/
def commit (r : CommandResult) (s : State) : State :=
  match r with
  | .ok c => complete c s
  | .error e => raiseError e s

/-- What the host reads at `STATUS`: bits [31:10] are hardwired to zero (10_state R31; log 10). -/
def statusRead (s : State) : Word :=
  s.status &&& 0x000003FF#32

/-- What a read of a port gives the host (10_state R38). -/
def readPort (p : Port) (s : State) : ReadValue :=
  match p with
  | .cmd => .word s.cmd
  | .status => .word (statusRead s)
  | .out => .result s.out

/-- Reset puts `CMD`, `STATUS` and `OUT` to their reset values and issues no command (70_reset R170, R171).
The parameters and the host's side are not the block's to reset (log 8). -/
def resetBlock (s : State) : State :=
  { s with cmd := 0x00000000#32, status := 0x00000000#32, out := none }

/-- Append to what the host got back (60_exceptions R152; log 4). -/
def record (e : Event) (s : State) : State :=
  { s with trace := s.trace ++ [e] }

/-- Step 5 of `Issue`: it returns, and the host has `STATUS` and `OUT` (10_state R25, 60_exceptions R157). -/
def returnToHost (s : State) : State :=
  record (.returned s.cmd (statusRead s) s.out) s

/-- A read: the host gets the value, and no architectural state changes (10_state R38). -/
def answerRead (p : Port) (s : State) : State :=
  record (.answered p (readPort p s)) s

/-- The reset interaction (60_exceptions R157). -/
def answerReset (s : State) : State :=
  record .wasReset (resetBlock s)

end Sys2Proof.Machine
end

