-- ==== Sys2Proof/Machine/Bits.lean ====
section
/-! DEFINITION. Bit and byte sequences and their integer readings (00_scope R13, R14, R17). Index 0 is the first
and most significant element. All arithmetic is on naturals (41_framer R112). -/

namespace Sys2Proof.Machine

/-- `zeros(n)` (R13). -/
def zeros (n : Nat) : List Bit :=
  List.replicate n false

/-- XOR of all bits of a sequence (R17). -/
def xorAll : List Bit → Bit
  | [] => false
  | b :: s => b ^^ xorAll s

/-- `int_from_bits` (R14): the sum of s[k]·2^(len − 1 − k). -/
def intFromBits : List Bit → Nat
  | [] => 0
  | b :: s => b.toNat * 2 ^ s.length + intFromBits s

/-- `bits_from_int(v, n)` (R14): s[k] = (v >> (n − 1 − k)) & 1. The spec applies it only for v < 2^n. -/
def bitsFromInt (v n : Nat) : List Bit :=
  (List.range n).map fun k => v.testBit (n - 1 - k)

/-- `be_value` (R14): the sum of b[k]·256^(len − 1 − k). -/
def beValue : List Byte → Nat
  | [] => 0
  | b :: bs => b.toNat * 256 ^ bs.length + beValue bs

/-- `be_bytes(v, n)` (R14): the n bytes whose big-endian value is v. The spec applies it only for v < 256^n. -/
def beBytes (v n : Nat) : List Byte :=
  (List.range n).map fun k => BitVec.ofNat 8 (v / 256 ^ (n - 1 - k))

/-- `parity(v)` of a value of at most `width` bits (R17): XOR of its bits. -/
def parity (width v : Nat) : Bit :=
  xorAll ((List.range width).map fun k => v.testBit k)

end Sys2Proof.Machine
end

