-- ==== Sys2Proof/Machine/Positions.lean ====
section
/-! DEFINITION. The hardwired tables (00_scope R11, 10_state R34) and codeword positions, which are 1-based
(00_scope R15). -/

namespace Sys2Proof.Machine

/-- `PARITY_POS` (R11, R34). -/
def parityPos : List Nat :=
  [1, 2, 4, 8, 16]

/-- `DATA_POS` (R11, R34): 26 positions, not the 21 of the source's miscount (90_conflicts C1). -/
def dataPos : List Nat :=
  [3, 5, 6, 7, 9, 10, 11, 12, 13, 14, 15, 17, 18, 19, 20, 21, 22, 23, 24, 25, 26, 27, 28, 29, 30, 31]

/-- The positions 1..31. -/
def positions : List Nat :=
  List.range' 1 31

/-- `w(p)`, which is `w[p−1]` (R15). Outside the sequence it reads 0; no command reads there (log 15). -/
def bitAt (w : List Bit) (p : Nat) : Bit :=
  w.getD (p - 1) false

/-- `w(p) <- b`. -/
def setAt (w : List Bit) (p : Nat) (b : Bit) : List Bit :=
  w.set (p - 1) b

/-- `w(p) <- 1 − w(p)` (40_codec R90). -/
def flipAt (w : List Bit) (p : Nat) : List Bit :=
  setAt w p (!bitAt w p)

/-- `(i & p) ≠ 0` (00_scope R17). -/
def covers (p i : Nat) : Bool :=
  (i &&& p) != 0

end Sys2Proof.Machine
end

