-- ==== Sys2Proof/Machine/Codec.lean ====
section
/-! DEFINITION. The encoder and the decoder (40_codec): placement, the parity-bit tree, the syndrome generator, the
corrector, and the commands ENCB and DECB. -/

namespace Sys2Proof.Machine

/-- Step 1 of ENCB: data bit j goes to position `DATA_POS[j]` of 31 zeros (R81). -/
def placeData (d : List Bit) : List Bit :=
  (dataPos.zip d).foldl (fun w pb => setAt w pb.1 pb.2) (zeros 31)

/-- The parity sum of position p: XOR of w(i) over i in 1..31 with i ≠ p and (i & p) ≠ 0 (R83, R84). -/
def paritySum (w : List Bit) (p : Nat) : Bit :=
  xorAll ((positions.filter fun i => i != p && covers p i).map (bitAt w))

/-- Step 2 of ENCB: each parity position, in the order of `PARITY_POS`, gets its parity sum (R85). -/
def addParity (w : List Bit) : List Bit :=
  parityPos.foldl (fun w p => setAt w p (paritySum w p)) w

/-- `encode_block` on 26 bits (R85). -/
def encodeBlock (d : List Bit) : List Bit :=
  addParity (placeData d)

/-- `check[p]`: XOR of w(i) over i in 1..31 with (i & p) ≠ 0, i = p included (R87). -/
def checkSum (w : List Bit) (p : Nat) : Bit :=
  xorAll ((positions.filter (covers p)).map (bitAt w))

/-- The syndrome: OR of p over every parity position whose check is not 0 (R88). -/
def syndrome (w : List Bit) : Syndrome :=
  parityPos.foldl (fun syn p => if checkSum w p then syn ||| BitVec.ofNat 5 p else syn) 0#5

/-- The corrector: flips the position a nonzero syndrome names (R90). -/
def correct (w : List Bit) (syn : Syndrome) : List Bit :=
  if syn = 0#5 then w else flipAt w syn.toNat

/-- `Extract(w)`: the bits at the data positions, ascending (R82). -/
def extractData (w : List Bit) : List Bit :=
  dataPos.map (bitAt w)

/-- `decode_block` on 31 bits: the data and the syndrome (R91; 42_stream's `Dec`). -/
def decodeBlock (w : List Bit) : List Bit × Syndrome :=
  (extractData (correct w (syndrome w)), syndrome w)

/-- How ENCB ends (R85). -/
def encbResult (x : Value) : CommandResult := do
  let d ← takeBits x
  if d.length ≠ 26 then .error .malformedWord
  else .ok { out := .bits (encodeBlock d), corr := false, syn := 0#5 }

/-- How DECB ends (R91). -/
def decbResult (x : Value) : CommandResult := do
  let w ← takeBits x
  if w.length ≠ 31 then .error .malformedWord
  else .ok { out := .bits (decodeBlock w).1, corr := (decodeBlock w).2 != 0#5, syn := (decodeBlock w).2 }

/-- ENCB (40_codec R85). -/
def execEncb (x : Value) (s : State) : Host.Outcome State Fault Refusal :=
  .next (commit (encbResult x) s)

/-- DECB (40_codec R91). -/
def execDecb (x : Value) (s : State) : Host.Outcome State Fault Refusal :=
  .next (commit (decbResult x) s)

end Sys2Proof.Machine
end

