-- ==== Sys2Proof/Machine/Framer.lean ====
section
/-! DEFINITION. The framer (41_framer): the length-prefixed sequence, the cut into 26-bit blocks, and the commands
FRAME and UNFRAME. -/

namespace Sys2Proof.Machine

/-- The framed sequence of a byte sequence: 32 header bits, then the content (R100 to R102). -/
def frameBits (b : List Byte) : List Bit :=
  bitsFromInt b.length 32 ++ bitsFromInt (beValue b) (8 * b.length)

/-- The header of a framed sequence as a byte count (R101, R103). -/
def headerCount (s : List Bit) : Nat :=
  intFromBits (s.take 32)

/-- The unframing step: too few bits for the header, or for what it declares, is FRAMING (R104, R105); bits beyond
are ignored (R106). -/
def unframeBits (s : List Bit) : Except ErrorKind (List Byte) :=
  if s.length < 32 then .error .framing
  else if s.length < 32 + 8 * headerCount s then .error .framing
  else .ok (beBytes (intFromBits ((s.drop 32).take (8 * headerCount s))) (headerCount s))

/-- A block filled up to 26 bits with zeros at its end (R108, R109). -/
def padBlock (b : List Bit) : List Bit :=
  b ++ zeros (26 - b.length)

/-- `Chunk26(s)`: the blocks m with 26·m < len(s), each `take(drop(s, 26·m), 26)` padded (R108, R110). -/
def chunk26 (s : List Bit) : List (List Bit) :=
  (List.range ((s.length + 25) / 26)).map fun m => padBlock ((s.drop (26 * m)).take 26)

/-- `Concat(blocks)` (R111). -/
def concatBlocks (blocks : List (List Bit)) : List Bit :=
  blocks.flatten

/-- How FRAME ends (R100). -/
def frameResult (p : Params) (x : Value) : CommandResult := do
  let b ← takeBytes x
  if p.maxLenBytes < b.length then .error .lengthOverflow
  else .ok { out := .bits (frameBits b), corr := false, syn := 0#5 }

/-- How UNFRAME ends (R103). -/
def unframeResult (p : Params) (x : Value) : CommandResult := do
  let s ← takeBits x
  if exceeds p.maxDecodeBits s.length then .error .lengthOverflow
  else do
    let b ← unframeBits s
    .ok { out := .bytes b, corr := false, syn := 0#5 }

/-- FRAME (41_framer R100). -/
def execFrame (x : Value) (s : State) : Host.Outcome State Fault Refusal :=
  .next (commit (frameResult s.params x) s)

/-- UNFRAME (41_framer R103). -/
def execUnframe (x : Value) (s : State) : Host.Outcome State Fault Refusal :=
  .next (commit (unframeResult s.params x) s)

end Sys2Proof.Machine
end

