-- ==== Sys2Proof/Machine/Reserved.lean ====
section
/-! DEFINITION. The two reserved OPs (30_encoding R67): with any operand they raise ILLEGAL_COMMAND and have no
other effect than 60_exceptions R145 gives. -/

namespace Sys2Proof.Machine

/-- OP 110 (R67). -/
def execReserved6 (_ : Value) (s : State) : Host.Outcome State Fault Refusal :=
  .next (raiseError .illegalCommand s)

/-- OP 111 (R67). -/
def execReserved7 (_ : Value) (s : State) : Host.Outcome State Fault Refusal :=
  .next (raiseError .illegalCommand s)

end Sys2Proof.Machine
end

