-- ==== Sys2Proof/Machine/Stream.lean ====
section
/-! DEFINITION. The stream commands ENCS and DECS (42_stream R120 to R124). -/

namespace Sys2Proof.Machine

/-- The codewords that carry a byte sequence, in block order (R120, 20_memory R45). -/
def encodeStream (b : List Byte) : List (List Bit) :=
  (chunk26 (frameBits b)).map encodeBlock

/-- The data of a list of codewords, in list order (R121, 41_framer R111). -/
def decodeData (ws : List (List Bit)) : List Bit :=
  concatBlocks (ws.map fun w => (decodeBlock w).1)

/-- Some codeword of the list has a nonzero syndrome (R123). -/
def anyCorrected (ws : List (List Bit)) : Bool :=
  ws.any fun w => (decodeBlock w).2 != 0#5

/-- How ENCS ends (R120). -/
def encsResult (p : Params) (x : Value) : CommandResult := do
  let b ← takeBytes x
  if p.maxLenBytes < b.length then .error .lengthOverflow
  else .ok { out := .words (encodeStream b), corr := false, syn := 0#5 }

/-- How DECS ends: the size limit, then every element's length, then decoding and unframing (R121, R122; the order
is 60_exceptions R149). -/
def decsResult (p : Params) (x : Value) : CommandResult := do
  let ws ← takeWords x
  if exceeds p.maxDecodeBits (26 * ws.length) then .error .lengthOverflow
  else if ws.any (fun w => w.length != 31) then .error .malformedWord
  else do
    let b ← unframeBits (decodeData ws)
    .ok { out := .bytes b, corr := anyCorrected ws, syn := 0#5 }

/-- ENCS (42_stream R120). -/
def execEncs (x : Value) (s : State) : Host.Outcome State Fault Refusal :=
  .next (commit (encsResult s.params x) s)

/-- DECS (42_stream R121). -/
def execDecs (x : Value) (s : State) : Host.Outcome State Fault Refusal :=
  .next (commit (decsResult s.params x) s)

end Sys2Proof.Machine
end

