-- ==== Sys2Proof/Machine/Dispatch.lean ====
section
/-! DEFINITION. The dispatch of a command to its meaning (30_encoding R61, R73). -/

namespace Sys2Proof.Machine

def exec (i : Instr) (s : State) : Host.Outcome State Fault Refusal :=
  match i with
  | .encb x => Sys2Proof.Machine.execEncb x s
  | .decb x => Sys2Proof.Machine.execDecb x s
  | .frame x => Sys2Proof.Machine.execFrame x s
  | .unframe x => Sys2Proof.Machine.execUnframe x s
  | .encs x => Sys2Proof.Machine.execEncs x s
  | .decs x => Sys2Proof.Machine.execDecs x s
  | .reserved6 x => Sys2Proof.Machine.execReserved6 x s
  | .reserved7 x => Sys2Proof.Machine.execReserved7 x s

end Sys2Proof.Machine
end

