-- ==== Sys2Proof/Machine/Issue.lean ====
section
/-! DEFINITION. The transaction `Issue(word, IN)` (10_state R25) and the host's other interactions (60_exceptions
R157). -/

namespace Sys2Proof.Machine

/-- Go on with `f` from a next state; a fault or a refusal stands. -/
def andThen (o : Host.Outcome State Fault Refusal) (f : State → State) : Host.Outcome State Fault Refusal :=
  match o with
  | .next s => .next (f s)
  | .fault r => .fault r
  | .refused r => .refused r

/-- Steps 2 to 4 of `Issue` (R25): decode the word and run the command. A word with reserved bits set raises
ILLEGAL_COMMAND (30_encoding R62). -/
def runCommand (word : Word) (x : Value) (s : State) : Host.Outcome State Fault Refusal :=
  match decode word x with
  | .ok i => exec i s
  | .error .reservedBits => .next (raiseError .illegalCommand s)

/-- `Issue(word, IN)`: all five steps, as one (R25). -/
def issue (word : Word) (x : Value) (s : State) : Host.Outcome State Fault Refusal :=
  andThen (runCommand word x (latchCommand word s)) returnToHost

/-- One interaction of the host (R157). -/
def interact (a : HostAction) (s : State) : Host.Outcome State Fault Refusal :=
  match a with
  | .issue word x => issue word x s
  | .read p => .next (answerRead p s)
  | .reset => .next (answerReset s)

/-- Take the oldest pending interaction off the inbox. -/
def dropAction (s : State) : State :=
  { s with inbox := s.inbox.tail }

/-- Put an interaction before all others in the inbox. -/
def pushAction (a : HostAction) (s : State) : State :=
  { s with inbox := a :: s.inbox }

end Sys2Proof.Machine
end

