-- ==== Sys2Proof/Machine/Step.lean ====
section
/-! DEFINITION. One step: the host's oldest pending interaction happens. With none pending the block does nothing on
its own (60_exceptions R157; log 3). -/

namespace Sys2Proof.Machine

/-- One step of the block and its host. -/
def step (s : State) : Host.Outcome State Fault Refusal :=
  match s.inbox with
  | [] => .next s
  | a :: _ => interact a (dropAction s)

/-- The state in which the host's next interaction is to issue the table word, with the all-zero operand (log 6).
The block fetches nothing (10_state R22): the host's issue is how a command comes to run (log 2). -/
def State.withFetchWord (s : State) (nbits w : Nat) : State :=
  pushAction (.issue (tableWord nbits w) (zeroOperand (tableWord nbits w))) s

end Sys2Proof.Machine
end

