-- ==== Sys2Proof/Machine/Assembler.lean ====
section
/-! DEFINITION. The forms in which the spec's test programs write a command (30_encoding R70): abstract syntax with its
range checks, and the reading of a source line (log 12). It is notation for the host's transactions, not the block's. -/

namespace Sys2Proof.Machine

/-- A BITS operand as written. -/
inductive BitsForm where
  /-- `0b<digits>`: exactly the digits written, any number of them. -/
  | bin (digits : List Bit)
  /-- `0x<7 hex digits>`: the 26-bit operand whose packed view is the value. -/
  | hex7 (value : Nat)
  /-- `0x<8 hex digits>`: the 31-bit operand whose packed view is the value. -/
  | hex8 (value : Nat)
deriving DecidableEq, Repr

/-- An operand as written, in the `.cmd` form. -/
inductive OperandForm where
  | bits (form : BitsForm)
  | bytes (list : List Byte)
  | words (list : List BitsForm)
deriving DecidableEq, Repr

/-- A source line of R70. -/
inductive AsmLine where
  | encb (form : BitsForm)
  | decb (form : BitsForm)
  | frame (list : List Byte)
  | unframe (digits : List Bit)
  | encs (list : List Byte)
  | decs (list : List BitsForm)
  /-- `.cmd 0x<8 hex digits> <operand>`. -/
  | cmd (word : Word) (operand : OperandForm)
deriving DecidableEq, Repr

/-- The bit sequence of a form; a hexadecimal value must be below 2^26 or 2^31 (R70, 00_scope R16). -/
def bitsOfForm : BitsForm → Option (List Bit)
  | .bin digits => some digits
  | .hex7 v => if v < 2 ^ 26 then some (bitsFromInt v 26) else none
  | .hex8 v => if v < 2 ^ 31 then some (bitsFromInt v 31) else none

/-- An ENCB operand: `0b` or 7 hex digits. -/
def dataOfForm : BitsForm → Option (List Bit)
  | .bin digits => bitsOfForm (.bin digits)
  | .hex7 v => bitsOfForm (.hex7 v)
  | .hex8 _ => none

/-- A DECB operand or DECS element: `0b` or 8 hex digits. -/
def wordOfForm : BitsForm → Option (List Bit)
  | .bin digits => bitsOfForm (.bin digits)
  | .hex8 v => bitsOfForm (.hex8 v)
  | .hex7 _ => none

/-- The value of an operand in the `.cmd` form. -/
def valueOfForm : OperandForm → Option Value
  | .bits form => (bitsOfForm form).map .bits
  | .bytes list => some (.bytes list)
  | .words list => (list.mapM wordOfForm).map .words

/-- The transaction a line stands for; `none` where the assembler rejects the line. -/
def assemble : AsmLine → Option HostAction
  | .encb form => (dataOfForm form).map fun d => .issue 0x00000000#32 (.bits d)
  | .decb form => (wordOfForm form).map fun w => .issue 0x00000001#32 (.bits w)
  | .frame list => some (.issue 0x00000002#32 (.bytes list))
  | .unframe digits => some (.issue 0x00000003#32 (.bits digits))
  | .encs list => some (.issue 0x00000004#32 (.bytes list))
  | .decs list => (list.mapM wordOfForm).map fun ws => .issue 0x00000005#32 (.words ws)
  | .cmd word operand => (valueOfForm operand).map fun x => .issue word x

/- Source lines as characters. -/

/-- What follows a prefix; `none` where the text does not begin with it. -/
def afterPrefix (pre s : List Char) : Option (List Char) :=
  if pre.isPrefixOf s then some (s.drop pre.length) else none

/-- A binary digit. -/
def binDigit (c : Char) : Option Bit :=
  if c = '0' then some false else if c = '1' then some true else none

/-- A hexadecimal digit, in either case. -/
def hexDigit (c : Char) : Option Nat :=
  if '0' ≤ c ∧ c ≤ '9' then some (c.toNat - 48)
  else if 'A' ≤ c ∧ c ≤ 'F' then some (c.toNat - 55)
  else if 'a' ≤ c ∧ c ≤ 'f' then some (c.toNat - 87)
  else none

/-- The value of hexadecimal digits, the first most significant. -/
def hexValue (digits : List Nat) : Nat :=
  digits.foldl (fun v d => 16 * v + d) 0

/-- The pieces of a text between commas. -/
def splitCommas (cur : List Char) : List Char → List (List Char)
  | [] => [cur]
  | c :: cs => if c = ',' then cur :: splitCommas [] cs else splitCommas (cur ++ [c]) cs

/-- The elements between a bracket pair, separated by commas; nothing between them is the empty list. -/
def bracketed (open_ close : Char) (s : List Char) : Option (List (List Char)) :=
  match s with
  | c :: cs =>
    if c = open_ ∧ cs.getLast? = some close then
      some (if cs.dropLast = [] then [] else splitCommas [] cs.dropLast)
    else none
  | [] => none

/-- `0b<digits>`, or `0x` with 7 or 8 hexadecimal digits. -/
def readBits (s : List Char) : Option BitsForm :=
  match afterPrefix ['0', 'b'] s with
  | some ds => (ds.mapM binDigit).map .bin
  | none => do
    let hs ← (← afterPrefix ['0', 'x'] s).mapM hexDigit
    if hs.length = 7 then some (.hex7 (hexValue hs))
    else if hs.length = 8 then some (.hex8 (hexValue hs))
    else none

/-- A byte written as two hexadecimal digits. -/
def readByte (s : List Char) : Option Byte := do
  let hs ← s.mapM hexDigit
  if hs.length = 2 then some (BitVec.ofNat 8 (hexValue hs)) else none

/-- `[h0, h1, ...]`. -/
def readBytes (s : List Char) : Option (List Byte) := do
  (← bracketed '[' ']' s).mapM readByte

/-- `{w0, w1, ...}`. -/
def readWords (s : List Char) : Option (List BitsForm) := do
  (← bracketed (Char.ofNat 0x7B) (Char.ofNat 0x7D) s).mapM readBits

/-- Any operand form, for `.cmd`. -/
def readOperand (s : List Char) : Option OperandForm :=
  match readBytes s, readWords s with
  | some list, _ => some (.bytes list)
  | none, some list => some (.words list)
  | none, none => (readBits s).map .bits

/-- `0x<8 hex digits> <operand>`, with the spaces taken out. -/
def readCmd (s : List Char) : Option AsmLine := do
  let r ← afterPrefix ['0', 'x'] s
  let hs ← (r.take 8).mapM hexDigit
  if hs.length = 8 then (readOperand (r.drop 8)).map (.cmd (BitVec.ofNat 32 (hexValue hs))) else none

/-- A form with exactly the digits written, for UNFRAME. -/
def readDigits (s : List Char) : Option (List Bit) := do
  (← afterPrefix ['0', 'b'] s).mapM binDigit

/-- A source line: the mnemonic, one space, and the operand, in which spaces mean nothing. -/
def readLine (s : List Char) : Option AsmLine :=
  let operand (mnemonic : List Char) : Option (List Char) :=
    (afterPrefix (mnemonic ++ [' ']) s).map fun r => r.filter (· != ' ')
  (operand ['E', 'N', 'C', 'B']).bind (fun r => (readBits r).map .encb) <|>
  (operand ['D', 'E', 'C', 'B']).bind (fun r => (readBits r).map .decb) <|>
  (operand ['F', 'R', 'A', 'M', 'E']).bind (fun r => (readBytes r).map .frame) <|>
  (operand ['U', 'N', 'F', 'R', 'A', 'M', 'E']).bind (fun r => (readDigits r).map .unframe) <|>
  (operand ['E', 'N', 'C', 'S']).bind (fun r => (readBytes r).map .encs) <|>
  (operand ['D', 'E', 'C', 'S']).bind (fun r => (readWords r).map .decs) <|>
  (operand ['.', 'c', 'm', 'd']).bind readCmd

/-- The transaction a source line stands for. -/
def assembleLine (s : List Char) : Option HostAction :=
  (readLine s).bind assemble

end Sys2Proof.Machine
end

