-- ==== Sys2Proof/Machine/HostText.lean ====
section
/-! DEFINITION. The host's text functions (42_stream R126 to R131). They bind the host software, not the block
(00_scope R7): they are functions over the block's `Issue`, not commands (30_encoding R71; log 9). -/

namespace Sys2Proof.Machine

/-- The character of a bit: `'0'` is 0x30 and `'1'` is 0x31 (R126). -/
def charOfBit (b : Bit) : Byte :=
  if b then 0x31#8 else 0x30#8

/-- The separators: space, tab, line feed, vertical tab, form feed, carriage return, and no other byte (R128). -/
def isSeparator (c : Byte) : Bool :=
  [0x20#8, 0x09#8, 0x0A#8, 0x0B#8, 0x0C#8, 0x0D#8].contains c

/-- `Serialize(words)`: one token per codeword, one space between neighbours, no newline (R126; log 13). -/
def serialize (words : List (List Bit)) : List Byte :=
  List.intercalate [0x20#8] (words.map fun w => w.map charOfBit)

/-- The tokens of the rest of a text, given the token begun: maximal runs of bytes that are not separators (R127). -/
def tokensFrom (cur : List Byte) : List Byte → List (List Byte)
  | [] => if cur = [] then [] else [cur]
  | c :: cs =>
    if isSeparator c then
      if cur = [] then tokensFrom [] cs else cur :: tokensFrom [] cs
    else tokensFrom (cur ++ [c]) cs

/-- The tokens of a text (R127). -/
def tokens (text : List Byte) : List (List Byte) :=
  tokensFrom [] text

/-- The bit of a token's character; any other character has none (R127). -/
def bitOfChar (c : Byte) : Option Bit :=
  if c = 0x30#8 then some false else if c = 0x31#8 then some true else none

/-- A token of exactly 31 characters `'0'`/`'1'` is a word; any other token is none (R127, 60_exceptions R147). -/
def parseToken (t : List Byte) : Option (List Bit) :=
  if t.length = 31 then t.mapM bitOfChar else none

/-- `Parse(text)`; `none` is FORMAT_ERROR (R127, R129). -/
def parseText (text : List Byte) : Option (List (List Bit)) :=
  (tokens text).mapM parseToken

/-- Why a host text function gives no result. -/
inductive TextError where
  /-- FORMAT_ERROR: `Parse` failed and no command was issued (R129, 60_exceptions R147). -/
  | formatError
  /-- The block raised the error with this code (60_exceptions R148). -/
  | commandFailed (err : BitVec 3)
deriving DecidableEq, Repr

/-- What a host text function leaves: the block's state, and the text or bytes or the error. -/
structure TextRun where
  state : State
  result : Except TextError (List Byte)
deriving Repr

/-- Issue a command and read a result off the state it leaves. -/
def issueThen (word : Word) (x : Value) (s : State) (f : State → Except TextError (List Byte)) :
    Host.Outcome TextRun Fault Refusal :=
  match issue word x s with
  | .next t => .next { state := t, result := f t }
  | .fault r => .fault r
  | .refused r => .refused r

/-- The text of a completed ENCS, or its error (R130). -/
def textOfOut (s : State) : Except TextError (List Byte) :=
  match s.out with
  | some (.words ws) => .ok (serialize ws)
  | some (.bits _) => .error (.commandFailed (errField s.status))
  | some (.bytes _) => .error (.commandFailed (errField s.status))
  | none => .error (.commandFailed (errField s.status))

/-- The bytes of a completed DECS, or its error (R131). -/
def bytesOfOut (s : State) : Except TextError (List Byte) :=
  match s.out with
  | some (.bytes b) => .ok b
  | some (.bits _) => .error (.commandFailed (errField s.status))
  | some (.words _) => .error (.commandFailed (errField s.status))
  | none => .error (.commandFailed (errField s.status))

/-- `EncodeText(b)`: issue ENCS, then `Serialize(OUT)` (R130). -/
def encodeText (b : List Byte) (s : State) : Host.Outcome TextRun Fault Refusal :=
  issueThen 0x00000004#32 (.bytes b) s textOfOut

/-- `DecodeText(text)`: `Parse`, then issue DECS; a FORMAT_ERROR issues no command (R129, R131). -/
def decodeText (text : List Byte) (s : State) : Host.Outcome TextRun Fault Refusal :=
  match parseText text with
  | none => .next { state := s, result := .error .formatError }
  | some ws => issueThen 0x00000005#32 (.words ws) s bytesOfOut

end Sys2Proof.Machine
end

