-- ==== Sys2Proof/Machine/Lanes.lean ====
section
/-! DEFINITION. Block-level parallelism (20_memory R47). An implementation may work on the blocks of one ENCS or DECS
command on any number of lanes and in any order, as long as the output order is kept. This is that implementation;
`exec` does not call it, since no rule reads `LANES`, and the statements compare the two (log 7). -/

namespace Sys2Proof.Machine

/-- Work on the blocks in the order given by the block numbers `order`: each result goes to its block's own slot,
and the slots are read out in block order. A slot whose block was never worked on is empty. -/
def runSchedule {α β : Type} (f : α → β) (blocks : List α) (order : List Nat) : List (Option β) :=
  order.foldl
    (fun slots m => match blocks[m]? with
      | some b => slots.set m (some (f b))
      | none => slots)
    (List.replicate blocks.length none)

/-- One legal order on `lanes` lanes: block m belongs to lane m mod `lanes`, and each lane finishes its blocks before
the next lane starts. -/
def laneOrder (lanes n : Nat) : List Nat :=
  (List.range lanes).flatMap fun l => (List.range n).filter fun m => m % lanes == l

end Sys2Proof.Machine
end

