-- ==== Sys2Proof/Safety.lean ====
section
/-! DEFINITION. The terms the statements use: the coherence of what the host can see, the invariant of the machine,
error patterns, and the byte and bit order written out. -/

namespace Sys2Proof.Machine

/-- A result has the kind and the length of the command word it belongs to (10_state R32, 30_encoding R61, R65): an
ENCB result and every ENCS element is a 31-bit word with syndrome 0 (40_codec R86), a DECB result has 26 bits, a
FRAME result the length its own header says (41_framer R101), a decode-side result a length a header can hold. -/
def resultFits (word : Word) (v : Value) : Bool :=
  match word.toNat, v with
  | 0, .bits w => w.length == 31 && syndrome w == 0#5
  | 1, .bits d => d.length == 26
  | 2, .bits f => 32 ≤ f.length && f.length == 32 + 8 * headerCount f
  | 3, .bytes b => b.length < 2 ^ 32
  | 4, .words ws => 2 ≤ ws.length && ws.all fun w => w.length == 31 && syndrome w == 0#5
  | 5, .bytes b => b.length < 2 ^ 32
  | _, _ => false

/-- What `CMD`, `STATUS` and `OUT` may be together (10_state R27 to R33): reserved bits 0; ERR one of the codes that
are written; VALID exactly when there is a result, and then ERR = 000; no CORR or SYN without VALID; CORR only after
DECB and DECS, SYN only after DECB, and after DECB CORR = 1 iff SYN ≠ 0; the result fits the command. -/
def coherent (cmd status : Word) (out : Option Value) : Bool :=
  reservedField status == 0#22 &&
  [0b000#3, 0b001#3, 0b010#3, 0b100#3, 0b101#3].contains (errField status) &&
  validField status == out.isSome &&
  (!validField status || errField status == 0b000#3) &&
  (validField status || (!corrField status && synField status == 0#5)) &&
  (!corrField status || cmd == 1#32 || cmd == 5#32) &&
  (synField status == 0#5 || cmd == 1#32) &&
  (cmd != 1#32 || corrField status == (synField status != 0#5)) &&
  out.all (resultFits cmd)

/-- An event reports a coherent outcome. -/
def eventCoherent : Event → Bool
  | .returned word status out => coherent word status out
  | .answered _ _ => true
  | .wasReset => true

/-- The invariant of the machine: legal parameters (00_scope R12), coherent registers, and a trace in which every
`Issue` reported a coherent outcome. -/
abbrev Inv (s : State) : Prop :=
  s.params.Legal ∧ coherent s.cmd s.status s.out = true ∧ s.trace.all eventCoherent = true

/-- The architectural state of 10_state R20. -/
def archState (s : State) : Word × Word × Option Value :=
  (s.cmd, s.status, s.out)

/-- The state with its architectural part replaced. -/
def withArch (s : State) (status : Word) (out : Option Value) : State :=
  { s with status := status, out := out }

/-- Bitwise XOR of two sequences of one length (00_scope R17). -/
def xorBits (a b : List Bit) : List Bit :=
  List.zipWith (fun x y => x ^^ y) a b

/-- The positions of the 1 bits of a word, XORed together as 5-bit numbers (40_codec R89). -/
def xorOfPositions (w : List Bit) : Syndrome :=
  ((positions.filter (bitAt w)).map (BitVec.ofNat 5)).foldr (fun a b => a ^^^ b) 0#5

/-- The data positions as the source defines them: {1..31} minus {1, 2, 4, 8, 16}, ascending (40_codec R81). -/
def ascendingDataPositions : List Nat :=
  positions.filter fun p => !parityPos.contains p

/-- `received` is `sent` with at most one bit flipped in each word (42_stream R124). -/
def atMostOneErrorEach (sent received : List (List Bit)) : Prop :=
  List.Forall₂ (fun w r => r = w ∨ ∃ i, 1 ≤ i ∧ i ≤ 31 ∧ r = flipAt w i) sent received

/-- The operand of FRAME, ENCS, UNFRAME or DECS is above its size limit (60_exceptions R146); ENCB, DECB and the
reserved OPs have none. -/
def overLimit (p : Params) : Instr → Bool
  | .frame (.bytes b) => p.maxLenBytes < b.length
  | .encs (.bytes b) => p.maxLenBytes < b.length
  | .unframe (.bits u) => exceeds p.maxDecodeBits u.length
  | .decs (.words ws) => exceeds p.maxDecodeBits (26 * ws.length)
  | .frame _ => false
  | .encs _ => false
  | .unframe _ => false
  | .decs _ => false
  | .encb _ => false
  | .decb _ => false
  | .reserved6 _ => false
  | .reserved7 _ => false

/-- The bits a command gives to the unframing step: UNFRAME's operand, DECS's decoded data (60_exceptions R142). -/
def unframedBits : Instr → Option (List Bit)
  | .unframe (.bits u) => some u
  | .decs (.words ws) => some (decodeData ws)
  | .unframe _ => none
  | .decs _ => none
  | .frame _ => none
  | .encs _ => none
  | .encb _ => none
  | .decb _ => none
  | .reserved6 _ => none
  | .reserved7 _ => none

/-- A decode-side length is within the limit (00_scope R12, 20_memory R55). -/
abbrev withinLimit (limit : Option Nat) (n : Nat) : Prop :=
  ∀ m ∈ limit, n ≤ m

end Sys2Proof.Machine
end

