-- ==== Sys2Proof/WellFormed.lean ====
section
/-! DEFINITION. What the host must supply for a command to be one it can expect a result of: a legal OP
(30_encoding R67, R68), an operand of the OP's kind (R61, R64) and operand blocks of the right length
(20_memory R46). The machine does not assume any of this: it raises the spec's error instead. -/

namespace Sys2Proof

/-- The operand kind column of R61; `none` is its "any", which the two reserved rows have. -/
def Instr.operandKind : Instr → Option Kind
  | .encb _ => some .bits
  | .decb _ => some .bits
  | .frame _ => some .bytes
  | .unframe _ => some .bits
  | .encs _ => some .bytes
  | .decs _ => some .words
  | .reserved6 _ => none
  | .reserved7 _ => none

/-- The OP is one of the six legal ones (R68). -/
def Instr.legalOp (i : Instr) : Bool :=
  i.operandKind.isSome

/-- The operand has the kind R61 asks for (R64); the reserved rows take any. -/
def Instr.kindOk (i : Instr) : Bool :=
  i.operandKind.all (· == i.operand.kind)

/-- The lengths of 20_memory R46: 26 bits for ENCB, 31 for DECB and for each element of a DECS operand. -/
def Instr.lengthOk : Instr → Bool
  | .encb (.bits d) => d.length == 26
  | .decb (.bits w) => w.length == 31
  | .decs (.words ws) => ws.all (·.length == 31)
  | .encb _ => true
  | .decb _ => true
  | .decs _ => true
  | .frame _ => true
  | .unframe _ => true
  | .encs _ => true
  | .reserved6 _ => true
  | .reserved7 _ => true

/-- All three checks. -/
def WellFormed (i : Instr) : Bool :=
  i.legalOp && i.kindOk && i.lengthOk

end Sys2Proof
end

