-- ==== Sys2Proof/Certificates/Slice0/Obligations.lean ====
section
/-! DEFINITION. The statements for the provers, from the numbered rules of the spec. `withArch s st o` is the state `s`
with STATUS `st` and OUT `o` and nothing else changed, so an equation with it is the whole frame of a command. -/

open Sys2Proof Sys2Proof.Machine

/- Encoding -/

/-- R61: the eight words of the opcode table, written out bit by bit, stand for their commands. -/
def Obligations.TableWordsDecodeToTheirCommands : Prop :=
  ∀ x : Value,
    decode 0b00000000000000000000000000000000#32 x = .ok (.encb x) ∧
    decode 0b00000000000000000000000000000001#32 x = .ok (.decb x) ∧
    decode 0b00000000000000000000000000000010#32 x = .ok (.frame x) ∧
    decode 0b00000000000000000000000000000011#32 x = .ok (.unframe x) ∧
    decode 0b00000000000000000000000000000100#32 x = .ok (.encs x) ∧
    decode 0b00000000000000000000000000000101#32 x = .ok (.decs x) ∧
    decode 0b00000000000000000000000000000110#32 x = .ok (.reserved6 x) ∧
    decode 0b00000000000000000000000000000111#32 x = .ok (.reserved7 x)

/-- R60, R61, R63: decoding the word and operand of any command gives the command back, and a word and operand that
decode to a command are the ones that command encodes to, so no two words mean one command. -/
def Obligations.DecodeAndEncodeAgree : Prop :=
  (∀ i : Instr, decode (encode i).1 (encode i).2 = .ok i) ∧
  (∀ (w : Word) (x : Value) (i : Instr), decode w x = .ok i → encode i = (w, x))

/-- R62, R67 (and R68's "every other word is illegal"): a word with a reserved bit set and the words of the two reserved
OPs raise ILLEGAL_COMMAND, whatever the operand. -/
def Obligations.EveryOtherWordRaisesIllegalCommand : Prop :=
  ∀ (s : State) (w : Word) (x : Value),
    (rsvField w ≠ 0 ∨ opField w = 0b110#3 ∨ opField w = 0b111#3) →
    ∃ t : State, issue w x s = .next t ∧ archState t = (w, 0x00000004#32, none)

/-- R64: an operand of another kind than R61 requires raises ILLEGAL_COMMAND. -/
def Obligations.WrongOperandKindRaisesIllegalCommand : Prop :=
  ∀ (i : Instr) (k : Kind) (s : State), i.operandKind = some k → i.operand.kind ≠ k →
    exec i s = .next (withArch s 0x00000004#32 none)

/-- R67: the effect of the two reserved OPs is the ILLEGAL_COMMAND entry, with every operand. -/
def Obligations.ReservedOpsRaiseIllegalCommand : Prop :=
  ∀ (x : Value) (s : State),
    exec (.reserved6 x) s = .next (withArch s 0x00000004#32 none) ∧
    exec (.reserved7 x) s = .next (withArch s 0x00000004#32 none)

/-- R70: the hexadecimal forms write only operands of the right length, with the value as packed view, and only below
2^26 or 2^31; the `0b` forms write exactly the digits. -/
def Obligations.AssemblerFormsWriteTheirOperands : Prop :=
  (∀ v : Nat, v < 2 ^ 26 → ∃ d, assemble (.encb (.hex7 v)) = some (.issue 0x00000000#32 (.bits d)) ∧
    d.length = 26 ∧ intFromBits d = v) ∧
  (∀ v : Nat, v < 2 ^ 31 → ∃ w, assemble (.decb (.hex8 v)) = some (.issue 0x00000001#32 (.bits w)) ∧
    w.length = 31 ∧ intFromBits w = v) ∧
  (∀ v : Nat, 2 ^ 26 ≤ v → assemble (.encb (.hex7 v)) = none) ∧
  (∀ v : Nat, 2 ^ 31 ≤ v → assemble (.decb (.hex8 v)) = none) ∧
  (∀ u : List Bit, assemble (.encb (.bin u)) = some (.issue 0x00000000#32 (.bits u)) ∧
    assemble (.decb (.bin u)) = some (.issue 0x00000001#32 (.bits u)) ∧
    assemble (.unframe u) = some (.issue 0x00000003#32 (.bits u)))

/- The machine: reset, steps, registers, errors -/

/-- R170: the reset state, and the reset interaction from any state; the constant tables are what R11 and R81 say. -/
def Obligations.ResetPutsEveryRegisterToItsResetValue : Prop :=
  (∀ p : Params, archState (State.resetWith p) = (0x00000000#32, 0x00000000#32, none)) ∧
  errField 0x00000000#32 = 0b000#3 ∧ validField 0x00000000#32 = false ∧
  corrField 0x00000000#32 = false ∧ synField 0x00000000#32 = 0b00000#5 ∧
  parityPos = [1, 2, 4, 8, 16] ∧ dataPos = ascendingDataPositions ∧
  (∀ s : State, ∃ t : State, interact .reset s = .next t ∧ archState t = (0x00000000#32, 0x00000000#32, none))

/-- The invariant holds after reset with any legal parameters, the default ones among them. -/
def Obligations.InvariantHoldsAfterReset : Prop :=
  (∀ p : Params, p.Legal → Inv (State.resetWith p)) ∧ Inv State.reset

/-- Every step keeps the invariant: legal parameters; CMD, STATUS and OUT coherent (R27 to R33, R65, R86, R101); and
every outcome the host was ever given coherent. -/
def Obligations.EveryStepKeepsTheInvariant : Prop :=
  ∀ s t : State, Inv s → step s = .next t → Inv t

/-- R157: the block "has no move unless the host issues a command or asserts reset". That its step is then a next state
with nothing changed is the model's choice (log 3). -/
def Obligations.NothingHappensUntilTheHostActs : Prop :=
  ∀ s : State, s.inbox = [] → step s = .next s

/-- A step runs the decoded command (R25): CMD is latched, the command runs, and the host is handed STATUS and OUT.
The inbox and the trace are the model's (log 2, 4). -/
def Obligations.StepRunsTheDecodedCommand : Prop :=
  ∀ (s : State) (w : Word) (x : Value) (rest : List HostAction) (i : Instr),
    s.inbox = .issue w x :: rest → decode w x = .ok i →
    ∃ t : State, exec i { s with cmd := w, inbox := rest } = .next t ∧
      step s = .next { t with trace := t.trace ++ [.returned t.cmd (statusRead t) t.out] }

/-- A step makes the host's oldest pending interaction and no other, hands the host its outcome, and keeps the parameters.
The inbox, the trace and the parameters in the state are the model's (log 2, 4, 5, 8). -/
def Obligations.StepMakesTheOldestInteraction : Prop :=
  ∀ (s : State) (a : HostAction) (rest : List HostAction), s.inbox = a :: rest →
    ∃ t : State, step s = .next t ∧ interact a { s with inbox := rest } = .next t ∧
      t.inbox = rest ∧ t.params = s.params ∧
      t.trace = s.trace ++ [match a with
        | .issue w _ => .returned w t.status t.out
        | .read p => .answered p (readPort p s)
        | .reset => .wasReset]

/-- R24, R54, R145's frame, for all eight commands: a command takes a next state and writes STATUS and OUT only. -/
def Obligations.CommandsWriteOnlyStatusAndOut : Prop :=
  ∀ (i : Instr) (s : State), ∃ (st : Word) (o : Option Value), exec i s = .next (withArch s st o)

/-- R36: what an issued word leaves in CMD, STATUS and OUT is the same from any two states of blocks with the same
parameters. -/
def Obligations.EffectIsAFunctionOfWordAndOperand : Prop :=
  ∀ (s s' : State) (w : Word) (x : Value), s.params = s'.params →
    ∃ (st : Word) (o : Option Value) (t t' : State),
      issue w x s = .next t ∧ archState t = (w, st, o) ∧
      issue w x s' = .next t' ∧ archState t' = (w, st, o)

/-- R48: issuing the same word with the same operand twice leaves the registers as issuing it once does. -/
def Obligations.IssuingTwiceIsIssuingOnce : Prop :=
  ∀ (s : State) (w : Word) (x : Value),
    ∃ t u : State, issue w x s = .next t ∧ issue w x t = .next u ∧ archState u = archState t

/-- R38: a read changes nothing the block holds, so the next read of any port gives the host the same; CMD and OUT are read
as they stand, and so is STATUS, whose bits [31:10] read zero. -/
def Obligations.ReadsChangeNothing : Prop :=
  (∀ (s : State) (p : Port), ∃ t : State, interact (.read p) s = .next t ∧
    archState t = archState s ∧ ∀ q : Port, readPort q t = readPort q s) ∧
  (∀ s : State, readPort .cmd s = .word s.cmd ∧ readPort .out s = .result s.out ∧
    (reservedField s.status = 0#22 → readPort .status s = .word s.status))

/-- R24: CMD is written by issuing (any word, an illegal one too) and by reset, and by nothing else; reset leaves CMD at
ENCB's word and issues no command (R171). -/
def Obligations.OnlyIssueAndResetWriteCmd : Prop :=
  ∀ (s : State) (a : HostAction), ∃ t : State, interact a s = .next t ∧
    match a with
    | .issue w _ => t.cmd = w ∧ readPort .cmd t = .word w
    | .read _ => t.cmd = s.cmd
    | .reset => t.cmd = 0x00000000#32 ∧ t.out = none ∧ validField t.status = false

/-- R31: STATUS[31:10] reads zero in every state, and no command writes anything else there. -/
def Obligations.ReservedStatusBitsReadZero : Prop :=
  (∀ s : State, reservedField (statusRead s) = 0#22) ∧
  (∀ (i : Instr) (s : State), ∃ t : State, exec i s = .next t ∧ reservedField t.status = 0#22 ∧
    statusRead t = t.status)

/-- R143 (and R27's reserved codes): no issued word ends with ERR = 011, 110 or 111, and no syndrome exceeds 31. -/
def Obligations.SyndromeRangeIsNeverRaised : Prop :=
  (∀ (s : State) (w : Word) (x : Value), ∃ t : State, issue w x s = .next t ∧
    errField t.status ≠ 0b011#3 ∧ errField t.status ≠ 0b110#3 ∧ errField t.status ≠ 0b111#3) ∧
  (∀ w : List Bit, (syndrome w).toNat ≤ 31)

/-- R28: VALID = 1 exactly when OUT holds the command's result; 1 when it completes, 0 when it raises an error; 0 at
reset. -/
def Obligations.ValidExactlyWhenOutHoldsTheResult : Prop :=
  (∀ (i : Instr) (s : State), ∃ t : State, exec i s = .next t ∧
    (validField t.status = true ↔ t.out.isSome = true) ∧
    (validField t.status = true ↔ errField t.status = 0b000#3)) ∧
  validField State.reset.status = false

/-- R145: a command that raises an error leaves STATUS with its code alone, OUT *none*, and everything else as it was. -/
def Obligations.ErrorEntryWritesCodeAndNone : Prop :=
  ∀ (i : Instr) (s : State), ∃ t : State, exec i s = .next t ∧
    (errField t.status ≠ 0b000#3 →
      ∃ e : ErrorKind, errField t.status = e.code ∧
        t = withArch s (e.code.setWidth 32) none ∧
        validField t.status = false ∧ corrField t.status = false ∧ synField t.status = 0b00000#5)

/-- R149: the first failing check, in the order of the table, decides ERR; with no failing check ERR = 000. -/
def Obligations.FirstFailingCheckDecidesTheError : Prop :=
  ∀ (s : State) (w : Word) (x : Value),
    ∃ t : State, issue w x s = .next t ∧
      (rsvField w ≠ 0 → errField t.status = 0b100#3) ∧
      (rsvField w = 0 → (opField w = 0b110#3 ∨ opField w = 0b111#3) → errField t.status = 0b100#3) ∧
      (∀ (i : Instr) (k : Kind), decode w x = .ok i → i.operandKind = some k →
        (x.kind ≠ k → errField t.status = 0b100#3) ∧
        (x.kind = k →
          (overLimit s.params i = true → errField t.status = 0b101#3) ∧
          (overLimit s.params i = false →
            (i.lengthOk = false → errField t.status = 0b001#3) ∧
            (i.lengthOk = true →
              (unframedBits i = none → errField t.status = 0b000#3) ∧
              (∀ u, unframedBits i = some u →
                (u.length < 32 → errField t.status = 0b010#3) ∧
                (32 ≤ u.length → u.length < 32 + 8 * intFromBits (u.take 32) → errField t.status = 0b010#3) ∧
                (32 + 8 * intFromBits (u.take 32) ≤ u.length → errField t.status = 0b000#3))))))

/-- R177: every command is one step and terminates: as many steps as there are pending interactions make them all, each
with one entry in the trace (R152), and no parameter changes. The inbox and the trace are the model's (log 2, 4). -/
def Obligations.EveryPendingInteractionIsMade : Prop :=
  ∀ s : State, ∃ t : State,
    Host.Core.run Sys2Proof.core s.inbox.length s = .next t ∧
    t.inbox = [] ∧ t.trace.length = s.trace.length + s.inbox.length ∧ t.params = s.params

/-- R152: no later command takes an outcome out of the trace, so no error is lost. The trace is the model's (log 4). -/
def Obligations.TheTraceIsNeverRewritten : Prop :=
  ∀ (n : Nat) (s : State), ∃ t : State, Host.Core.run Sys2Proof.core n s = .next t ∧ s.trace <+: t.trace

/- Encoder and decoder -/

/-- R85 and R81: ENCB for every operand. Data bit j stands at the j-th position of {1..31} minus {1, 2, 4, 8, 16}, and each
parity position holds its parity sum; other lengths and kinds raise the error the rule names. -/
def Obligations.EncbEncodesOneBlock : Prop :=
  (∀ (d : List Bit) (s : State), d.length = 26 →
    ∃ w, exec (.encb (.bits d)) s = .next (withArch s 0x00000008#32 (some (.bits w))) ∧
      w.length = 31 ∧
      (∀ j, j < 26 → bitAt w (ascendingDataPositions.getD j 0) = d.getD j false) ∧
      (∀ p ∈ [1, 2, 4, 8, 16],
        bitAt w p = xorAll (((List.range' 1 31).filter fun i => i != p && (i &&& p) != 0).map (bitAt w)))) ∧
  (∀ (d : List Bit) (s : State), d.length ≠ 26 →
    exec (.encb (.bits d)) s = .next (withArch s 0x00000001#32 none)) ∧
  (∀ (x : Value) (s : State), x.kind ≠ .bits → exec (.encb x) s = .next (withArch s 0x00000004#32 none)) ∧
  (∀ s : State,
    exec (.encb (.bits (List.replicate 26 false))) s =
      .next (withArch s 0x00000008#32 (some (.bits (List.replicate 31 false)))) ∧
    exec (.encb (.bits (List.replicate 26 true))) s =
      .next (withArch s 0x00000008#32 (some (.bits (List.replicate 31 true)))) ∧
    exec (.encb (.bits (bitsFromInt 0x0000001 26))) s =
      .next (withArch s 0x00000008#32 (some (.bits (bitsFromInt 0x68808001 31)))))

/-- R84: the five parity bits as the source's sums over positions, as the written-out sums over data bits, and as parities
of the packed block under the masks. -/
def Obligations.ParityBitsAreTheMaskedParities : Prop :=
  ∀ (d : List Bit) (s : State), d.length = 26 →
    ∃ w, exec (.encb (.bits d)) s = .next (withArch s 0x00000008#32 (some (.bits w))) ∧
      (bitAt w 1 = paritySum w 1 ∧
        bitAt w 1 = xorAll ([0, 1, 3, 4, 6, 8, 10, 11, 13, 15, 17, 19, 21, 23, 25].map (d.getD · false)) ∧
        bitAt w 1 = parity 26 (intFromBits d &&& 0x36AD555)) ∧
      (bitAt w 2 = paritySum w 2 ∧
        bitAt w 2 = xorAll ([0, 2, 3, 5, 6, 9, 10, 12, 13, 16, 17, 20, 21, 24, 25].map (d.getD · false)) ∧
        bitAt w 2 = parity 26 (intFromBits d &&& 0x2D9B333)) ∧
      (bitAt w 4 = paritySum w 4 ∧
        bitAt w 4 = xorAll ([1, 2, 3, 7, 8, 9, 10, 14, 15, 16, 17, 22, 23, 24, 25].map (d.getD · false)) ∧
        bitAt w 4 = parity 26 (intFromBits d &&& 0x1C78F0F)) ∧
      (bitAt w 8 = paritySum w 8 ∧
        bitAt w 8 = xorAll ([4, 5, 6, 7, 8, 9, 10, 18, 19, 20, 21, 22, 23, 24, 25].map (d.getD · false)) ∧
        bitAt w 8 = parity 26 (intFromBits d &&& 0x03F80FF)) ∧
      (bitAt w 16 = paritySum w 16 ∧
        bitAt w 16 = xorAll ([11, 12, 13, 14, 15, 16, 17, 18, 19, 20, 21, 22, 23, 24, 25].map (d.getD · false)) ∧
        bitAt w 16 = parity 26 (intFromBits d &&& 0x0007FFF))

/-- R86: every codeword ENCB produces has each parity bit equal to the XOR of the other positions it covers, every check
zero, and syndrome 0. -/
def Obligations.CodewordsHaveZeroSyndrome : Prop :=
  ∀ (d : List Bit) (s : State), d.length = 26 →
    ∃ w, exec (.encb (.bits d)) s = .next (withArch s 0x00000008#32 (some (.bits w))) ∧
      (∀ p ∈ [1, 2, 4, 8, 16], bitAt w p = paritySum w p ∧ checkSum w p = false) ∧
      syndrome w = 0#5

/-- R95: ENCB is linear over GF(2), and a codeword is the XOR of the unit blocks' codewords. -/
def Obligations.EncodingIsLinear : Prop :=
  (∀ (a b : List Bit) (s : State), a.length = 26 → b.length = 26 →
    ∃ u v, exec (.encb (.bits a)) s = .next (withArch s 0x00000008#32 (some (.bits u))) ∧
      exec (.encb (.bits b)) s = .next (withArch s 0x00000008#32 (some (.bits v))) ∧
      exec (.encb (.bits (xorBits a b))) s = .next (withArch s 0x00000008#32 (some (.bits (xorBits u v))))) ∧
  (∀ (d : List Bit) (s : State), d.length = 26 →
    exec (.encb (.bits d)) s = .next (withArch s 0x00000008#32 (some (.bits
      (((List.range 26).filter (d.getD · false)).foldl
        (fun acc j => xorBits acc (encodeBlock ((List.replicate 26 false).set j true)))
        (List.replicate 31 false))))))

/-- R88, R90, R91: DECB for every operand. SYN bit k is the XOR of the positions whose bit k is set; data bit j is the bit
at the j-th data position, inverted when the syndrome names that position. -/
def Obligations.DecbDecodesOneWord : Prop :=
  (∀ (w : List Bit) (s : State), w.length = 31 →
    ∃ (d : List Bit) (syn : Syndrome),
      exec (.decb (.bits w)) s = .next (withArch s
        (BitVec.ofNat 32 (0x8 + (if syn = 0#5 then 0 else 0x10) + syn.toNat * 2 ^ 5)) (some (.bits d))) ∧
      (∀ k, k < 5 →
        syn.getLsbD k = xorAll (((List.range' 1 31).filter fun i => (i &&& 2 ^ k) != 0).map (bitAt w))) ∧
      d.length = 26 ∧
      (∀ j, j < 26 → d.getD j false =
        (bitAt w (ascendingDataPositions.getD j 0) ^^ decide (ascendingDataPositions.getD j 0 = syn.toNat)))) ∧
  (∀ (w : List Bit) (s : State), w.length = 31 → (syndrome w).toNat ∈ [1, 2, 4, 8, 16] →
    exec (.decb (.bits w)) s = .next (withArch s
      (BitVec.ofNat 32 (0x18 + (syndrome w).toNat * 2 ^ 5)) (some (.bits (extractData w))))) ∧
  (∀ (w : List Bit) (s : State), w.length ≠ 31 →
    exec (.decb (.bits w)) s = .next (withArch s 0x00000001#32 none)) ∧
  (∀ (x : Value) (s : State), x.kind ≠ .bits → exec (.decb x) s = .next (withArch s 0x00000004#32 none)) ∧
  (∀ s : State,
    exec (.decb (.bits (List.replicate 31 false))) s =
      .next (withArch s 0x00000008#32 (some (.bits (List.replicate 26 false)))) ∧
    exec (.decb (.bits (List.replicate 31 true))) s =
      .next (withArch s 0x00000008#32 (some (.bits (List.replicate 26 true)))) ∧
    exec (.decb (.bits (bitsFromInt 0x6C808001 31))) s =
      .next (withArch s 0x000000B8#32 (some (.bits (bitsFromInt 0x0000001 26)))))

/-- R87: the five checks, which are the bits of SYN after DECB, as XORs over positions and as parities of the packed word
under the masks; each check covers 16 positions. -/
def Obligations.SyndromeBitsAreTheMaskedParities : Prop :=
  (∀ (w : List Bit) (s : State), w.length = 31 →
    ∃ t : State, exec (.decb (.bits w)) s = .next t ∧
      (∀ k, k < 5 → (synField t.status).getLsbD k =
        xorAll (((List.range' 1 31).filter fun i => (i &&& 2 ^ k) != 0).map (bitAt w))) ∧
      (synField t.status).getLsbD 0 = parity 32 (intFromBits w &&& 0x55555555) ∧
      (synField t.status).getLsbD 1 = parity 32 (intFromBits w &&& 0x33333333) ∧
      (synField t.status).getLsbD 2 = parity 32 (intFromBits w &&& 0x0F0F0F0F) ∧
      (synField t.status).getLsbD 3 = parity 32 (intFromBits w &&& 0x00FF00FF) ∧
      (synField t.status).getLsbD 4 = parity 32 (intFromBits w &&& 0x0000FFFF)) ∧
  (∀ p ∈ [1, 2, 4, 8, 16], ((List.range' 1 31).filter fun i => (i &&& p) != 0).length = 16)

/-- R89: SYN after DECB is the XOR of the positions of the word's 1 bits; the syndrome is linear; and of a codeword with
an error pattern it is the pattern's. -/
def Obligations.SyndromeIsTheXorOfPositions : Prop :=
  (∀ (w : List Bit) (s : State), w.length = 31 →
    ∃ t : State, exec (.decb (.bits w)) s = .next t ∧ synField t.status = xorOfPositions w) ∧
  (∀ w v : List Bit, w.length = 31 → v.length = 31 → syndrome (xorBits w v) = syndrome w ^^^ syndrome v) ∧
  (∀ d e : List Bit, d.length = 26 → e.length = 31 → syndrome (xorBits (encodeBlock d) e) = syndrome e)

/-- R92, R98: DECB of a codeword gives its data back, and so it does with any one position flipped, which SYN then
names. -/
def Obligations.EverySingleErrorIsCorrected : Prop :=
  ∀ (d : List Bit) (s : State), d.length = 26 →
    ∃ c, exec (.encb (.bits d)) s = .next (withArch s 0x00000008#32 (some (.bits c))) ∧
      extractData c = d ∧
      exec (.decb (.bits c)) s = .next (withArch s 0x00000008#32 (some (.bits d))) ∧
      (∀ i, 1 ≤ i → i ≤ 31 →
        exec (.decb (.bits (flipAt c i))) s =
          .next (withArch s (BitVec.ofNat 32 (0x18 + i * 2 ^ 5)) (some (.bits d))))

/-- R93: with two positions i ≠ j flipped, DECB flips the third position i ⊕ j, reports CORR = 1 as for a single error,
and the data is wrong. -/
def Obligations.EveryDoubleErrorIsMiscorrected : Prop :=
  ∀ (d : List Bit) (i j : Nat) (s : State), d.length = 26 → 1 ≤ i → i ≤ 31 → 1 ≤ j → j ≤ 31 → i ≠ j →
    ∃ c d', exec (.encb (.bits d)) s = .next (withArch s 0x00000008#32 (some (.bits c))) ∧
      (i ^^^ j) ≠ 0 ∧ (i ^^^ j) ≠ i ∧ (i ^^^ j) ≠ j ∧ (i ^^^ j) ≤ 31 ∧
      (i ∈ [1, 2, 4, 8, 16] → j ∈ [1, 2, 4, 8, 16] → (i ^^^ j) ∉ [1, 2, 4, 8, 16]) ∧
      (∀ q ∈ [i, j], bitAt (flipAt (flipAt (flipAt c i) j) (i ^^^ j)) q ≠ bitAt c q) ∧
      d' = extractData (flipAt (flipAt (flipAt c i) j) (i ^^^ j)) ∧
      exec (.decb (.bits (flipAt (flipAt c i) j))) s =
        .next (withArch s (BitVec.ofNat 32 (0x18 + (i ^^^ j) * 2 ^ 5)) (some (.bits d'))) ∧
      d' ≠ d

/-- R94: with any error pattern e on a codeword, DECB reports the XOR of the pattern's positions; when that is 0 it flips
nothing and flags nothing, and at {1, 2, 3} the data so returned is wrong; otherwise it flips the position named. -/
def Obligations.HeavierErrorsGetNoGuarantee : Prop :=
  (∀ (d e : List Bit) (s : State), d.length = 26 → e.length = 31 →
    ∃ c, exec (.encb (.bits d)) s = .next (withArch s 0x00000008#32 (some (.bits c))) ∧
      (xorOfPositions e = 0#5 →
        exec (.decb (.bits (xorBits c e))) s =
          .next (withArch s 0x00000008#32 (some (.bits (extractData (xorBits c e)))))) ∧
      (xorOfPositions e ≠ 0#5 →
        exec (.decb (.bits (xorBits c e))) s =
          .next (withArch s (BitVec.ofNat 32 (0x18 + (xorOfPositions e).toNat * 2 ^ 5))
            (some (.bits (extractData (flipAt (xorBits c e) (xorOfPositions e).toNat))))))) ∧
  (∀ (d : List Bit) (s : State), d.length = 26 →
    ∃ c d', exec (.encb (.bits d)) s = .next (withArch s 0x00000008#32 (some (.bits c))) ∧
      exec (.decb (.bits (flipAt (flipAt (flipAt c 1) 2) 3))) s =
        .next (withArch s 0x00000008#32 (some (.bits d'))) ∧ d' ≠ d)

/- Framer -/

/-- R100 to R102: FRAME for every operand. The header is the length, most significant bit first; then come the bytes in
order, each most significant bit first. -/
def Obligations.FrameEmitsHeaderAndContent : Prop :=
  (∀ (b : List Byte) (s : State), b.length ≤ s.params.maxLenBytes →
    ∃ f, exec (.frame (.bytes b)) s = .next (withArch s 0x00000008#32 (some (.bits f))) ∧
      f.length = 32 + 8 * b.length ∧
      (∀ k, k < 32 → f.getD k false = b.length.testBit (31 - k)) ∧
      (∀ k t, k < b.length → t < 8 → f.getD (32 + 8 * k + (7 - t)) false = (b.getD k 0#8).getLsbD t)) ∧
  (∀ (b : List Byte) (s : State), s.params.maxLenBytes < b.length →
    exec (.frame (.bytes b)) s = .next (withArch s 0x00000005#32 none)) ∧
  (∀ (x : Value) (s : State), x.kind ≠ .bytes → exec (.frame x) s = .next (withArch s 0x00000004#32 none)) ∧
  (∀ s : State, 4 ≤ s.params.maxLenBytes →
    exec (.frame (.bytes [])) s = .next (withArch s 0x00000008#32 (some (.bits (List.replicate 32 false)))) ∧
    exec (.frame (.bytes [0x01#8, 0x02#8, 0x03#8, 0x04#8])) s =
      .next (withArch s 0x00000008#32 (some (.bits (bitsFromInt 0x0000000401020304 64)))))

/-- R103 to R105: UNFRAME for every operand. Too few bits for the header or for what it declares is FRAMING; otherwise byte
k's bit t is bit 32 + 8k + (7 − t) of the operand. -/
def Obligations.UnframeReadsHeaderAndContent : Prop :=
  (∀ (u : List Bit) (s : State), withinLimit s.params.maxDecodeBits u.length →
    (u.length < 32 → exec (.unframe (.bits u)) s = .next (withArch s 0x00000002#32 none)) ∧
    (32 ≤ u.length → u.length < 32 + 8 * intFromBits (u.take 32) →
      exec (.unframe (.bits u)) s = .next (withArch s 0x00000002#32 none)) ∧
    (32 + 8 * intFromBits (u.take 32) ≤ u.length →
      ∃ b, exec (.unframe (.bits u)) s = .next (withArch s 0x00000008#32 (some (.bytes b))) ∧
        b.length = intFromBits (u.take 32) ∧
        (∀ k t, k < b.length → t < 8 → (b.getD k 0#8).getLsbD t = u.getD (32 + 8 * k + (7 - t)) false))) ∧
  (∀ (u : List Bit) (m : Nat) (s : State), s.params.maxDecodeBits = some m → m < u.length →
    exec (.unframe (.bits u)) s = .next (withArch s 0x00000005#32 none)) ∧
  (∀ (x : Value) (s : State), x.kind ≠ .bits → exec (.unframe x) s = .next (withArch s 0x00000004#32 none)) ∧
  (∀ s : State, withinLimit s.params.maxDecodeBits 41 →
    exec (.unframe (.bits (bitsFromInt 0x00000001 32 ++ bitsFromInt 0xA5 8 ++ [true]))) s =
      .next (withArch s 0x00000008#32 (some (.bytes [0xA5#8]))))

/-- R106: bits after those the header asks for change nothing, whatever their number and value. -/
def Obligations.UnframeIgnoresTrailingBits : Prop :=
  ∀ (u t : List Bit) (s : State), withinLimit s.params.maxDecodeBits (u ++ t).length →
    32 + 8 * intFromBits (u.take 32) ≤ u.length →
    ∃ b, exec (.unframe (.bits u)) s = .next (withArch s 0x00000008#32 (some (.bytes b))) ∧
      exec (.unframe (.bits (u ++ t))) s = .next (withArch s 0x00000008#32 (some (.bytes b)))

/-- R107: FRAME then UNFRAME, with any bits appended, gives the bytes back. -/
def Obligations.FramingRoundTrips : Prop :=
  ∀ (b : List Byte) (t : List Bit) (s : State), s.params.Legal → b.length ≤ s.params.maxLenBytes →
    withinLimit s.params.maxDecodeBits (32 + 8 * b.length + t.length) →
    ∃ f, exec (.frame (.bytes b)) s = .next (withArch s 0x00000008#32 (some (.bits f))) ∧
      exec (.unframe (.bits (f ++ t))) s = .next (withArch s 0x00000008#32 (some (.bytes b)))

/-- R108 to R111: the blocks of Chunk26 have 26 bits each, there are ⌈len/26⌉ of them, and joined again they are the
sequence with (26 − len mod 26) mod 26 zeros after it. -/
def Obligations.ChunksJoinToThePaddedSequence : Prop :=
  (∀ s : List Bit, (∀ b ∈ chunk26 s, b.length = 26) ∧ s.length ≤ 26 * (chunk26 s).length ∧
    26 * (chunk26 s).length < s.length + 26 ∧
    concatBlocks (chunk26 s) = s ++ List.replicate ((26 - s.length % 26) % 26) false) ∧
  concatBlocks [] = [] ∧
  (∀ blocks : List (List Bit), (∀ b ∈ blocks, b.length = 26) →
    (concatBlocks blocks).length = 26 * blocks.length ∧
    ∀ m j, m < blocks.length → j < 26 →
      (concatBlocks blocks).getD (26 * m + j) false = (blocks.getD m []).getD j false)

/- Streams -/

/-- R120: ENCS for every operand. It gives ⌈(32 + 8·L)/26⌉ codewords; codeword m is what ENCB writes for the block of the
framed bits 26·m .. 26·m + 25, with zeros after their end. -/
def Obligations.EncsEncodesTheFramedBlocks : Prop :=
  (∀ (b : List Byte) (s : State), b.length ≤ s.params.maxLenBytes →
    ∃ (f : List Bit) (ws : List (List Bit)),
      exec (.frame (.bytes b)) s = .next (withArch s 0x00000008#32 (some (.bits f))) ∧
      exec (.encs (.bytes b)) s = .next (withArch s 0x00000008#32 (some (.words ws))) ∧
      ws.length = (32 + 8 * b.length + 25) / 26 ∧
      (∀ m, m < ws.length → ∃ blk : List Bit, blk.length = 26 ∧
        (∀ j, j < 26 → blk.getD j false = f.getD (26 * m + j) false) ∧
        exec (.encb (.bits blk)) s = .next (withArch s 0x00000008#32 (some (.bits (ws.getD m []))))) ∧
      (b.length < 64 → ws.getD 0 [] = List.replicate 31 false)) ∧
  (∀ (b : List Byte) (s : State), s.params.maxLenBytes < b.length →
    exec (.encs (.bytes b)) s = .next (withArch s 0x00000005#32 none)) ∧
  (∀ (x : Value) (s : State), x.kind ≠ .bytes → exec (.encs x) s = .next (withArch s 0x00000004#32 none)) ∧
  (∀ s : State, 4 ≤ s.params.maxLenBytes →
    exec (.encs (.bytes [])) s = .next (withArch s 0x00000008#32
      (some (.words [List.replicate 31 false, List.replicate 31 false]))) ∧
    exec (.encs (.bytes [0x01#8, 0x02#8, 0x03#8, 0x04#8])) s = .next (withArch s 0x00000008#32
      (some (.words [bitsFromInt 0x00000000 31, bitsFromInt 0x29801020 31, bitsFromInt 0x6B820000 31]))))

/-- R110: the number of blocks is ⌈len/26⌉, and the numbers of codewords ENCS gives for 0, 1, 2, 3, 4, 9 and 10 bytes. -/
def Obligations.StreamBlockCounts : Prop :=
  (∀ u : List Bit, u.length ≤ 26 * (chunk26 u).length ∧ 26 * (chunk26 u).length < u.length + 26) ∧
  (∀ (b : List Byte) (s : State), b.length ≤ s.params.maxLenBytes →
    ∃ ws : List (List Bit), exec (.encs (.bytes b)) s = .next (withArch s 0x00000008#32 (some (.words ws))) ∧
      2 ≤ ws.length ∧
      32 + 8 * b.length ≤ 26 * ws.length ∧ 26 * ws.length < 32 + 8 * b.length + 26 ∧
      (b.length = 0 → ws.length = 2) ∧ (b.length = 1 → ws.length = 2) ∧ (b.length = 2 → ws.length = 2) ∧
      (b.length = 3 → ws.length = 3) ∧ (b.length = 4 → ws.length = 3) ∧
      (b.length = 9 → ws.length = 4 ∧ 26 * ws.length = 32 + 8 * b.length) ∧
      (b.length = 10 → ws.length = 5))

/-- R121 to R123: DECS for every operand. `ds` are the data and syndromes DECB gives for the elements; their data joined is
unframed; CORR says whether some syndrome was not 0, and SYN is 0. -/
def Obligations.DecsDecodesAndUnframes : Prop :=
  (∀ (ws : List (List Bit)) (s : State), withinLimit s.params.maxDecodeBits (26 * ws.length) →
    (∀ w ∈ ws, w.length = 31) →
    ∃ ds : List (List Bit × Syndrome), ds.length = ws.length ∧
      (∀ m, m < ws.length → exec (.decb (.bits (ws.getD m []))) s = .next (withArch s
        (BitVec.ofNat 32 (0x8 + (if (ds.getD m ([], 0#5)).2 = 0#5 then 0 else 0x10) +
          (ds.getD m ([], 0#5)).2.toNat * 2 ^ 5))
        (some (.bits (ds.getD m ([], 0#5)).1)))) ∧
      (∀ u : List Bit, u = (ds.map Prod.fst).flatten →
        (u.length < 32 → exec (.decs (.words ws)) s = .next (withArch s 0x00000002#32 none)) ∧
        (32 ≤ u.length → u.length < 32 + 8 * intFromBits (u.take 32) →
          exec (.decs (.words ws)) s = .next (withArch s 0x00000002#32 none)) ∧
        (32 + 8 * intFromBits (u.take 32) ≤ u.length →
          ∃ b, exec (.decs (.words ws)) s = .next (withArch s
              (if ∀ d ∈ ds, d.2 = 0#5 then 0x00000008#32 else 0x00000018#32) (some (.bytes b))) ∧
            b.length = intFromBits (u.take 32) ∧
            (∀ k t, k < b.length → t < 8 →
              (b.getD k 0#8).getLsbD t = u.getD (32 + 8 * k + (7 - t)) false)))) ∧
  (∀ (ws : List (List Bit)) (s : State), withinLimit s.params.maxDecodeBits (26 * ws.length) →
    (∃ w ∈ ws, w.length ≠ 31) → exec (.decs (.words ws)) s = .next (withArch s 0x00000001#32 none)) ∧
  (∀ (ws : List (List Bit)) (m : Nat) (s : State), s.params.maxDecodeBits = some m → m < 26 * ws.length →
    exec (.decs (.words ws)) s = .next (withArch s 0x00000005#32 none)) ∧
  (∀ (x : Value) (s : State), x.kind ≠ .words → exec (.decs x) s = .next (withArch s 0x00000004#32 none)) ∧
  (∀ s : State, withinLimit s.params.maxDecodeBits 78 →
    exec (.decs (.words [bitsFromInt 0x00000000 31, bitsFromInt 0x29801020 31, bitsFromInt 0x6B820000 31])) s =
      .next (withArch s 0x00000008#32 (some (.bytes [0x01#8, 0x02#8, 0x03#8, 0x04#8]))) ∧
    exec (.decs (.words [bitsFromInt 0x00000000 31, bitsFromInt 0x29801021 31, bitsFromInt 0x6B820000 31])) s =
      .next (withArch s 0x00000018#32 (some (.bytes [0x01#8, 0x02#8, 0x03#8, 0x04#8]))))

/-- R124: ENCS then DECS gives the bytes back, with at most one bit flipped in each of any number of codewords, and with any
well-formed words appended. -/
def Obligations.StreamsRoundTripUnderSingleErrors : Prop :=
  ∀ (b : List Byte) (s : State), s.params.Legal → b.length ≤ s.params.maxLenBytes →
    ∃ sent : List (List Bit),
      exec (.encs (.bytes b)) s = .next (withArch s 0x00000008#32 (some (.words sent))) ∧
      exec (.decs (.words sent)) s = .next (withArch s 0x00000008#32 (some (.bytes b))) ∧
      (∀ received extra : List (List Bit), atMostOneErrorEach sent received →
        (∀ w ∈ extra, w.length = 31) →
        withinLimit s.params.maxDecodeBits (26 * (received ++ extra).length) →
        ∃ st : Word, exec (.decs (.words (received ++ extra))) s = .next (withArch s st (some (.bytes b))) ∧
          (st = 0x00000008#32 ∨ st = 0x00000018#32) ∧
          (received ≠ sent → st = 0x00000018#32))

/-- From R47: the number of lanes and the order in which blocks are worked on do not change the results of ENCS and DECS,
and no command's outcome depends on LANES. The lanes are the model's own: runSchedule and laneOrder stand for work on blocks
in any order and for one order on a number of lanes, a DESIGN CHOICE (log 7), since exec itself works block after block. What
runSchedule gives for DECS, `ds`, is joined and unframed as UNFRAME does it. -/
def Obligations.LanesAreNotObservable : Prop :=
  (∀ (b : List Byte) (s : State) (order : List Nat), b.length ≤ s.params.maxLenBytes →
    (∀ m, m < (chunk26 (frameBits b)).length → m ∈ order) →
    ∃ ws : List (List Bit), exec (.encs (.bytes b)) s = .next (withArch s 0x00000008#32 (some (.words ws))) ∧
      runSchedule encodeBlock (chunk26 (frameBits b)) order = ws.map some) ∧
  (∀ (ws : List (List Bit)) (s : State) (order : List Nat), (∀ m, m < ws.length → m ∈ order) →
    ∃ ds : List (List Bit × Syndrome), ds = ws.map decodeBlock ∧ runSchedule decodeBlock ws order = ds.map some ∧
      (withinLimit s.params.maxDecodeBits (26 * ws.length) → (∀ w ∈ ws, w.length = 31) →
        (exec (.unframe (.bits (ds.map Prod.fst).flatten)) s = .next (withArch s 0x00000002#32 none) ∧
          exec (.decs (.words ws)) s = .next (withArch s 0x00000002#32 none)) ∨
        (∃ b : List Byte,
          exec (.unframe (.bits (ds.map Prod.fst).flatten)) s =
            .next (withArch s 0x00000008#32 (some (.bytes b))) ∧
          exec (.decs (.words ws)) s = .next (withArch s
            (if ∀ d ∈ ds, d.2 = 0#5 then 0x00000008#32 else 0x00000018#32) (some (.bytes b)))))) ∧
  (∀ lanes n m : Nat, 1 ≤ lanes → m < n → m ∈ laneOrder lanes n) ∧
  (∀ (i : Instr) (s : State) (k : Nat), ∃ (st : Word) (o : Option Value),
    exec i s = .next (withArch s st o) ∧
    exec i { s with params := { s.params with lanes := k } } =
      .next (withArch { s with params := { s.params with lanes := k } } st o))

/- The host's text format -/

/-- R126: Serialize writes 31 characters per codeword, `'0'` or `'1'`, with exactly one space between neighbours and
nothing before the first or after the last. -/
def Obligations.SerializeWritesTokensAndSingleSpaces : Prop :=
  serialize [] = [] ∧
  (∀ ws : List (List Bit), ws ≠ [] → (∀ w ∈ ws, w.length = 31) →
    (serialize ws).length = 32 * ws.length - 1 ∧
    (∀ m k, m < ws.length → k < 31 → (serialize ws).getD (32 * m + k) 0#8 =
      if (ws.getD m []).getD k false then 0x31#8 else 0x30#8) ∧
    (∀ m, m + 1 < ws.length → (serialize ws).getD (32 * m + 31) 0#8 = 0x20#8))

/-- R127, R128: the tokens of a text are its maximal runs of bytes that are not one of the six separators. Every text is of
the form quantified over: separators, then tokens each followed by separators, then a last run that may be empty. -/
def Obligations.TokensAreTheMaximalRuns : Prop :=
  (∀ c : Byte, isSeparator c = true ↔
    c = 0x20#8 ∨ c = 0x09#8 ∨ c = 0x0A#8 ∨ c = 0x0B#8 ∨ c = 0x0C#8 ∨ c = 0x0D#8) ∧
  (∀ (lead last : List Byte) (runs : List (List Byte × List Byte)),
    (∀ c ∈ lead, isSeparator c = true) → (∀ c ∈ last, isSeparator c = false) →
    (∀ r ∈ runs, r.1 ≠ [] ∧ r.2 ≠ [] ∧ (∀ c ∈ r.1, isSeparator c = false) ∧ ∀ c ∈ r.2, isSeparator c = true) →
    tokens (lead ++ (runs.map fun r => r.1 ++ r.2).flatten ++ last) =
      runs.map Prod.fst ++ (if last = [] then [] else [last]))

/-- R127: Parse gives one 31-bit word per token, bit k being 1 iff character k is `'1'`, exactly when every token has 31
characters `'0'`/`'1'`. -/
def Obligations.ParseAcceptsExactlyTheBinaryTokens : Prop :=
  ∀ text : List Byte,
    ((∀ t ∈ tokens text, t.length = 31 ∧ ∀ c ∈ t, c = 0x30#8 ∨ c = 0x31#8) →
      parseText text = some ((tokens text).map fun t => t.map fun c => c == 0x31#8)) ∧
    ((∃ t ∈ tokens text, t.length ≠ 31 ∨ ∃ c ∈ t, c ≠ 0x30#8 ∧ c ≠ 0x31#8) → parseText text = none)

/-- R129: a FORMAT_ERROR issues no command and leaves the block as it was. -/
def Obligations.FormatErrorIssuesNoCommand : Prop :=
  ∀ (text : List Byte) (s : State),
    (∃ t ∈ tokens text, t.length ≠ 31 ∨ ∃ c ∈ t, c ≠ 0x30#8 ∧ c ≠ 0x31#8) →
    decodeText text s = .next { state := s, result := .error .formatError }

/-- From R130 and R131: EncodeText issues ENCS and serializes OUT, DecodeText issues DECS on the parsed words and gives OUT;
where the command raises an error there is no text and no bytes. That the failed run names the code in STATUS.ERR
(`commandFailed`) is the model's DESIGN CHOICE (log 9): the rules say only that there is no result. -/
def Obligations.TextPathsIssueTheStreamCommands : Prop :=
  (∀ (b : List Byte) (s : State), ∃ t : State, issue 0x00000004#32 (.bytes b) s = .next t ∧
    ((∃ ws, t.out = some (.words ws) ∧ encodeText b s = .next { state := t, result := .ok (serialize ws) }) ∨
      (t.out = none ∧
        encodeText b s = .next { state := t, result := .error (.commandFailed (errField t.status)) }))) ∧
  (∀ (text : List Byte) (ws : List (List Bit)) (s : State), parseText text = some ws →
    ∃ t : State, issue 0x00000005#32 (.words ws) s = .next t ∧
      ((∃ b, t.out = some (.bytes b) ∧ decodeText text s = .next { state := t, result := .ok b }) ∨
        (t.out = none ∧
          decodeText text s = .next { state := t, result := .error (.commandFailed (errField t.status)) })))

/-- R131: DecodeText of EncodeText gives the bytes back, for every byte sequence the limits admit, from any state. -/
def Obligations.TextRoundTrips : Prop :=
  ∀ (b : List Byte) (s : State), s.params.Legal → b.length ≤ s.params.maxLenBytes →
    ∃ (text : List Byte) (t u : State),
      encodeText b s = .next { state := t, result := .ok text } ∧
      decodeText text t = .next { state := u, result := .ok b }
end

