-- ==== Sys2Proof/Laws/Bits.lean ====
section
/-! SUPPORT. Lengths and integer readings of sequences (00_scope R14). -/

namespace Sys2Proof.Machine

@[simp] theorem zeros_length (n : Nat) : (zeros n).length = n := by
  simp [zeros]

@[simp] theorem bitsFromInt_length (v n : Nat) : (bitsFromInt v n).length = n := by
  simp [bitsFromInt]

@[simp] theorem beBytes_length (v n : Nat) : (beBytes v n).length = n := by
  simp [beBytes]

@[simp] theorem frameBits_length (b : List Byte) : (frameBits b).length = 32 + 8 * b.length := by
  simp [frameBits]

@[simp] theorem chunk26_length (s : List Bit) : (chunk26 s).length = (s.length + 25) / 26 := by
  simp [chunk26]

theorem padBlock_length (b : List Bit) (h : b.length ≤ 26) : (padBlock b).length = 26 := by
  simp [padBlock, h]

theorem chunk26_block_length (s b : List Bit) (h : b ∈ chunk26 s) : b.length = 26 := by
  simp only [chunk26, List.mem_map] at h
  obtain ⟨m, -, rfl⟩ := h
  exact padBlock_length _ (by simp)

/-- A reading of n bits is below 2^n. -/
theorem intFromBits_lt (s : List Bit) : intFromBits s < 2 ^ s.length := by
  induction s with
  | nil => simp [intFromBits]
  | cons b s ih =>
    simp only [intFromBits, List.length_cons, pow_succ]
    cases b <;> simp <;> omega

theorem intFromBits_append (s t : List Bit) :
    intFromBits (s ++ t) = intFromBits s * 2 ^ t.length + intFromBits t := by
  induction s with
  | nil => simp [intFromBits]
  | cons b s ih =>
    simp only [List.cons_append, intFromBits, List.length_append, ih]
    ring

theorem bitsFromInt_succ (v n : Nat) : bitsFromInt v (n + 1) = v.testBit n :: bitsFromInt v n := by
  simp only [bitsFromInt, List.range_succ_eq_map, List.map_cons, List.map_map]
  congr 1
  apply List.map_congr_left
  intro k hk
  have : k < n := List.mem_range.1 hk
  simp only [Function.comp_apply]
  congr 1
  omega

/-- The two conversions of R14 are inverse on n bits. -/
theorem intFromBits_bitsFromInt (v n : Nat) : intFromBits (bitsFromInt v n) = v % 2 ^ n := by
  induction n with
  | zero => simp [bitsFromInt, intFromBits, Nat.mod_one]
  | succ n ih =>
    rw [bitsFromInt_succ, intFromBits, ih, bitsFromInt_length]
    have e : v % 2 ^ (n + 1) = v % 2 ^ n + 2 ^ n * (v / 2 ^ n % 2) := by rw [pow_succ, Nat.mod_mul]
    have b : (v.testBit n).toNat = v / 2 ^ n % 2 := Nat.toNat_testBit v n
    rw [e, b]
    ring

/-- The header of a framed sequence is its byte count, where the count fits (41_framer R101). -/
theorem headerCount_frameBits (b : List Byte) (h : b.length < 2 ^ 32) : headerCount (frameBits b) = b.length := by
  have : (frameBits b).take 32 = bitsFromInt b.length 32 := by
    simp [frameBits]
  rw [headerCount, this, intFromBits_bitsFromInt, Nat.mod_eq_of_lt h]

end Sys2Proof.Machine
end

