-- ==== Sys2Proof/Laws/Codec.lean ====
section
/-! SUPPORT. The encoder and decoder position by position (40_codec R81 to R90), and lengths through them. -/

namespace Sys2Proof.Machine

@[simp] theorem setAt_length (w : List Bit) (p : Nat) (b : Bit) : (setAt w p b).length = w.length := by
  simp [setAt]

@[simp] theorem flipAt_length (w : List Bit) (p : Nat) : (flipAt w p).length = w.length := by
  simp [flipAt]

theorem foldl_length {α : Type} (f : List Bit → α → List Bit) (h : ∀ w a, (f w a).length = w.length)
    (l : List α) (w : List Bit) : (l.foldl f w).length = w.length := by
  induction l generalizing w with
  | nil => rfl
  | cons a l ih => rw [List.foldl_cons, ih, h]

@[simp] theorem placeData_length (d : List Bit) : (placeData d).length = 31 := by
  unfold placeData
  exact (foldl_length (fun w (pb : Nat × Bit) => setAt w pb.1 pb.2) (fun w a => setAt_length w a.1 a.2) _ _).trans rfl

@[simp] theorem addParity_length (w : List Bit) : (addParity w).length = w.length :=
  foldl_length _ (fun w p => setAt_length w p _) _ _

@[simp] theorem encodeBlock_length (d : List Bit) : (encodeBlock d).length = 31 := by
  simp [encodeBlock]

@[simp] theorem extractData_length (w : List Bit) : (extractData w).length = 26 := by
  simp [extractData, dataPos]

@[simp] theorem decodeBlock_length (w : List Bit) : (decodeBlock w).1.length = 26 := by
  simp [decodeBlock]

@[simp] theorem correct_length (w : List Bit) (syn : Syndrome) : (correct w syn).length = w.length := by
  unfold correct
  split <;> simp

/-- Reading a position after a write (00_scope R15). -/
theorem bitAt_setAt (w : List Bit) (p q : Nat) (b : Bit) (hp : 1 ≤ p) (hq : 1 ≤ q) (h : p ≤ w.length) :
    bitAt (setAt w p b) q = if p = q then b else bitAt w q := by
  unfold bitAt setAt
  simp only [List.getD_eq_getElem?_getD, List.getElem?_set]
  by_cases e : p = q
  · subst e
    have : p - 1 < w.length := by omega
    simp [this]
  · have : ¬ (p - 1 = q - 1) := by omega
    simp [this, e]

/-- Reading a position after a flip (R90). -/
theorem bitAt_flipAt (w : List Bit) (p q : Nat) (hp : 1 ≤ p) (hq : 1 ≤ q) (h : p ≤ w.length) :
    bitAt (flipAt w p) q = (bitAt w q ^^ decide (p = q)) := by
  unfold flipAt
  rw [bitAt_setAt w p q _ hp hq h]
  by_cases e : p = q
  · subst e; simp
  · simp [e]

/-- Two words that agree at every position are one. -/
theorem eq_of_bitAt (u v : List Bit) (hl : u.length = v.length)
    (h : ∀ q, 1 ≤ q → q ≤ u.length → bitAt u q = bitAt v q) : u = v := by
  apply List.ext_getElem hl
  intro i h1 h2
  have := h (i + 1) (by omega) (by omega)
  simpa [bitAt, List.getD_eq_getElem?_getD, h1, h2] using this

theorem placeFrom_bitAt_of_notMem (ps : List Nat) (d w : List Bit) (q : Nat)
    (hp : ∀ p ∈ ps, 1 ≤ p ∧ p ≤ w.length) (hq : 1 ≤ q) (hn : q ∉ ps) :
    bitAt ((ps.zip d).foldl (fun w (pb : Nat × Bit) => setAt w pb.1 pb.2) w) q = bitAt w q := by
  induction ps generalizing d w with
  | nil => rfl
  | cons p ps ih =>
    cases d with
    | nil => rfl
    | cons b d =>
      have h1 := hp p (by simp)
      have hne : p ≠ q := fun e => hn (by simp [e])
      rw [List.zip_cons_cons, List.foldl_cons, ih d _ ?_ (fun h => hn (List.mem_cons_of_mem _ h)),
        bitAt_setAt w p q b h1.1 hq h1.2, if_neg hne]
      intro r hr
      simpa using hp r (List.mem_cons_of_mem _ hr)

theorem placeFrom_bitAt_getD (ps : List Nat) (d w : List Bit) (j : Nat)
    (hp : ∀ p ∈ ps, 1 ≤ p ∧ p ≤ w.length) (hnd : ps.Nodup) (hj : j < ps.length) (hd : j < d.length) :
    bitAt ((ps.zip d).foldl (fun w (pb : Nat × Bit) => setAt w pb.1 pb.2) w) (ps.getD j 0) = d.getD j false := by
  induction ps generalizing d w j with
  | nil => simp at hj
  | cons p ps ih =>
    cases d with
    | nil => simp at hd
    | cons b d =>
      have h1 := hp p (by simp)
      have hps : ∀ r ∈ ps, 1 ≤ r ∧ r ≤ (setAt w p b).length := by
        intro r hr
        simpa using hp r (List.mem_cons_of_mem _ hr)
      have hnd' := List.nodup_cons.1 hnd
      rw [List.zip_cons_cons, List.foldl_cons]
      cases j with
      | zero =>
        have := placeFrom_bitAt_of_notMem ps d (setAt w p b) p hps h1.1 hnd'.1
        simp only [List.getD_cons_zero]
        rw [this, bitAt_setAt w p p b h1.1 h1.1 h1.2, if_pos rfl]
      | succ j =>
        simp only [List.getD_cons_succ]
        exact ih d _ j hps hnd'.2 (by simpa using hj) (by simpa using hd)

theorem dataPos_range : ∀ p ∈ dataPos, 1 ≤ p ∧ p ≤ 31 := by decide

theorem dataPos_nodup : dataPos.Nodup := by decide

/-- Data bit j stands at position `DATA_POS[j]` (R81). -/
theorem placeData_bitAt (d : List Bit) (j : Nat) (hd : d.length = 26) (hj : j < 26) :
    bitAt (placeData d) (dataPos.getD j 0) = d.getD j false := by
  have hz : (zeros 31).length = 31 := by simp
  exact placeFrom_bitAt_getD dataPos d (zeros 31) j (by rw [hz]; exact dataPos_range) dataPos_nodup
    (by simpa [dataPos] using hj) (by omega)

theorem xorAll_map_congr {f g : Nat → Bit} {l : List Nat} (h : ∀ i ∈ l, f i = g i) :
    xorAll (l.map f) = xorAll (l.map g) := by
  rw [List.map_congr_left h]

/-- A parity sum reads data positions only (R83). -/
theorem paritySum_congr (u v : List Bit) (p : Nat) (hp : p ∈ parityPos)
    (h : ∀ q ∈ dataPos, bitAt u q = bitAt v q) : paritySum u p = paritySum v p := by
  apply xorAll_map_congr
  have : ∀ p ∈ parityPos, ∀ i ∈ positions.filter (fun i => i != p && covers p i), i ∈ dataPos := by decide
  exact fun i hi => h i (this p hp i hi)

theorem bitAt_dataPos_setAt_parity (w : List Bit) (p : Nat) (b : Bit) (hw : w.length = 31) (hp : p ∈ parityPos) :
    ∀ q ∈ dataPos, bitAt (setAt w p b) q = bitAt w q := by
  intro q hq
  have h1 : ∀ p ∈ parityPos, 1 ≤ p ∧ p ≤ 31 := by decide
  have h2 : ∀ p ∈ parityPos, ∀ q ∈ dataPos, p ≠ q := by decide
  rw [bitAt_setAt w p q b (h1 p hp).1 (dataPos_range q hq).1 (by rw [hw]; exact (h1 p hp).2), if_neg (h2 p hp q hq)]

/-- Adding parity bits keeps the data positions and puts the parity sum of the word at each parity position. -/
theorem addParityFrom_bitAt (ps : List Nat) (w : List Bit) (hw : w.length = 31) (hps : ∀ p ∈ ps, p ∈ parityPos)
    (q : Nat) (hq : 1 ≤ q) :
    bitAt (ps.foldl (fun w p => setAt w p (paritySum w p)) w) q =
      if q ∈ ps then paritySum w q else bitAt w q := by
  induction ps generalizing w with
  | nil => simp
  | cons p ps ih =>
    have hp := hps p (by simp)
    have h1 : ∀ p ∈ parityPos, 1 ≤ p ∧ p ≤ 31 := by decide
    have hd := bitAt_dataPos_setAt_parity w p (paritySum w p) hw hp
    have hps' : ∀ r ∈ ps, r ∈ parityPos := fun r hr => hps r (List.mem_cons_of_mem _ hr)
    rw [List.foldl_cons, ih _ (by simpa using hw) hps', bitAt_setAt w p q _ (h1 p hp).1 hq (by rw [hw]; exact (h1 p hp).2)]
    by_cases hqs : q ∈ ps
    · rw [if_pos hqs, if_pos (List.mem_cons_of_mem _ hqs), paritySum_congr _ w q (hps' q hqs) hd]
    · by_cases e : p = q
      · subst e; simp [hqs]
      · have : q ∉ p :: ps := by simp [hqs, Ne.symm e]
        rw [if_neg hqs, if_neg e, if_neg this]

theorem addParity_bitAt (w : List Bit) (hw : w.length = 31) (q : Nat) (hq : 1 ≤ q) :
    bitAt (addParity w) q = if q ∈ parityPos then paritySum w q else bitAt w q :=
  addParityFrom_bitAt parityPos w hw (fun _ h => h) q hq

/-- What the encoder leaves at a data position (R85). -/
theorem bitAt_encodeBlock_data (d : List Bit) (hd : d.length = 26) (j : Nat) (hj : j < 26) :
    bitAt (encodeBlock d) (dataPos.getD j 0) = d.getD j false := by
  have h : ∀ j < 26, dataPos.getD j 0 ∉ parityPos ∧ 1 ≤ dataPos.getD j 0 := by decide
  rw [encodeBlock, addParity_bitAt _ (by simp) _ (h j hj).2, if_neg (h j hj).1, placeData_bitAt d j hd hj]

theorem paritySum_encodeBlock (d : List Bit) (p : Nat) (hp : p ∈ parityPos) :
    paritySum (encodeBlock d) p = paritySum (placeData d) p := by
  apply paritySum_congr _ _ p hp
  intro q hq
  have h : ∀ q ∈ dataPos, q ∉ parityPos := by decide
  rw [encodeBlock, addParity_bitAt _ (by simp) q (dataPos_range q hq).1, if_neg (h q hq)]

/-- What the encoder leaves at a parity position (R85). -/
theorem bitAt_encodeBlock_parity (d : List Bit) (p : Nat) (hp : p ∈ parityPos) :
    bitAt (encodeBlock d) p = paritySum (encodeBlock d) p := by
  have h1 : ∀ p ∈ parityPos, 1 ≤ p := by decide
  rw [paritySum_encodeBlock d p hp, encodeBlock, addParity_bitAt _ (by simp) p (h1 p hp), if_pos hp]

theorem xorAll_append (s t : List Bit) : xorAll (s ++ t) = (xorAll s ^^ xorAll t) := by
  induction s with
  | nil => simp [xorAll]
  | cons b s ih => simp [xorAll, ih]

theorem xorAll_perm {s t : List Bit} (h : s.Perm t) : xorAll s = xorAll t := by
  induction h with
  | nil => rfl
  | cons b _ ih => simp [xorAll, ih]
  | swap a b s => cases a <;> cases b <;> simp [xorAll]
  | trans _ _ ih1 ih2 => exact ih1.trans ih2

/-- A check is the parity bit XOR its parity sum (R84, R87). -/
theorem checkSum_eq (w : List Bit) (p : Nat) (hp : p ∈ parityPos) :
    checkSum w p = (bitAt w p ^^ paritySum w p) := by
  have h : ∀ p ∈ parityPos, (positions.filter (covers p)).Perm (p :: positions.filter fun i => i != p && covers p i) := by
    decide
  have := xorAll_perm ((h p hp).map (bitAt w))
  simpa [checkSum, paritySum, xorAll] using this

/-- Bit k of the syndrome is the check of position 2^k (R88). -/
theorem syndrome_getLsbD (w : List Bit) (k : Nat) (hk : k < 5) : (syndrome w).getLsbD k = checkSum w (2 ^ k) := by
  have e : syndrome w = (BitVec.ofBool (checkSum w 1)).setWidth 5 ||| (BitVec.ofBool (checkSum w 2)).setWidth 5 <<< 1 |||
      (BitVec.ofBool (checkSum w 4)).setWidth 5 <<< 2 ||| (BitVec.ofBool (checkSum w 8)).setWidth 5 <<< 3 |||
      (BitVec.ofBool (checkSum w 16)).setWidth 5 <<< 4 := by
    simp only [syndrome, parityPos, List.foldl]
    generalize checkSum w 1 = a
    generalize checkSum w 2 = b
    generalize checkSum w 4 = c
    generalize checkSum w 8 = f
    generalize checkSum w 16 = g
    revert a b c f g
    decide
  rw [e]
  interval_cases k <;> simp

end Sys2Proof.Machine
end

