-- ==== Sys2Proof/Laws/Decode.lean ====
section
/-! SUPPORT. Which words the decoder takes (30_encoding R60, R62). -/

namespace Sys2Proof

theorem rsvField_toNat (w : Word) : (rsvField w).toNat = w.toNat / 8 := by
  have h := w.isLt
  have e : w.toNat >>> 3 = w.toNat / 8 := by simp [Nat.shiftRight_eq_div_pow]
  simp only [rsvField, BitVec.extractLsb'_toNat, e]
  omega

theorem opField_toNat (w : Word) : (opField w).toNat = w.toNat % 8 := by
  simp [opField]

theorem rsvField_eq_zero_iff (w : Word) : rsvField w = 0#29 ↔ w.toNat < 8 := by
  constructor
  · intro h
    have := congrArg BitVec.toNat h
    rw [rsvField_toNat] at this
    simp at this
    omega
  · intro h
    apply BitVec.eq_of_toNat_eq
    rw [rsvField_toNat]
    simp
    omega

theorem decode_error_of_le (w : Word) (x : Value) (h : 8 ≤ w.toNat) : decode w x = .error .reservedBits := by
  have : ¬ rsvField w = 0#29 := by
    intro e
    have := (rsvField_eq_zero_iff w).1 e
    omega
  simp [decode, this]

theorem decode_ok_of_lt (w : Word) (x : Value) (h : w.toNat < 8) : decode w x = .ok (decodeOp (opField w) x) := by
  have : rsvField w = 0#29 := (rsvField_eq_zero_iff w).2 h
  simp [decode, this]

/-- The operand of a decoded command is the operand it came with. -/
theorem decodeOp_operand (op : BitVec 3) (x : Value) : (decodeOp op x).operand = x := by
  unfold decodeOp
  split <;> rfl

end Sys2Proof
end

