-- ==== Sys2Proof/Laws/Flags.lean ====
section
/-! SUPPORT. Reading the fields of STATUS back (10_state R26 to R31). -/

namespace Sys2Proof.Machine

variable (err : BitVec 3) (valid corr : Bool) (syn : Syndrome)

@[simp] theorem errField_statusWord : errField (statusWord err valid corr syn) = err := by
  unfold errField statusWord
  apply BitVec.eq_of_getLsbD_eq
  intro i hi
  interval_cases i <;> simp

@[simp] theorem validField_statusWord : validField (statusWord err valid corr syn) = valid := by
  simp [validField, statusWord]

@[simp] theorem corrField_statusWord : corrField (statusWord err valid corr syn) = corr := by
  simp [corrField, statusWord]

@[simp] theorem synField_statusWord : synField (statusWord err valid corr syn) = syn := by
  unfold synField statusWord
  apply BitVec.eq_of_getLsbD_eq
  intro i hi
  interval_cases i <;> simp

@[simp] theorem reservedField_statusWord : reservedField (statusWord err valid corr syn) = 0#22 := by
  unfold reservedField statusWord
  apply BitVec.eq_of_getLsbD_eq
  intro i hi
  interval_cases i <;> simp

/-- A word whose reserved field is 0 reads as it stands. -/
theorem mask_of_reservedField (w : Word) (h : reservedField w = 0#22) : w &&& 0x000003FF#32 = w := by
  apply BitVec.eq_of_getLsbD_eq
  intro i hi
  by_cases h10 : i < 10
  · have : (0x000003FF#32).getLsbD i = true := by interval_cases i <;> decide
    simp [this]
  · have h' := congrArg (fun v => BitVec.getLsbD v (i - 10)) h
    have e : 10 + (i - 10) = i := by omega
    have l : i - 10 < 22 := by omega
    simp [reservedField, e, l] at h'
    simp [h']

theorem statusRead_of_reservedField (s : State) (h : reservedField s.status = 0#22) : statusRead s = s.status :=
  mask_of_reservedField _ h

end Sys2Proof.Machine
end

