-- ==== Sys2Proof/Laws/State.lean ====
section
/-! SUPPORT. One lemma per field per update of the state, so that no proof unfolds a record update. -/

namespace Sys2Proof.Machine

@[simp] theorem latchCommand_cmd (w : Word) (s : State) : (latchCommand w s).cmd = w := rfl
@[simp] theorem latchCommand_status (w : Word) (s : State) : (latchCommand w s).status = s.status := rfl
@[simp] theorem latchCommand_out (w : Word) (s : State) : (latchCommand w s).out = s.out := rfl
@[simp] theorem latchCommand_params (w : Word) (s : State) : (latchCommand w s).params = s.params := rfl
@[simp] theorem latchCommand_inbox (w : Word) (s : State) : (latchCommand w s).inbox = s.inbox := rfl
@[simp] theorem latchCommand_trace (w : Word) (s : State) : (latchCommand w s).trace = s.trace := rfl

@[simp] theorem complete_cmd (c : Completion) (s : State) : (complete c s).cmd = s.cmd := rfl
@[simp] theorem complete_status (c : Completion) (s : State) : (complete c s).status = completedStatus c.corr c.syn := rfl
@[simp] theorem complete_out (c : Completion) (s : State) : (complete c s).out = some c.out := rfl
@[simp] theorem complete_params (c : Completion) (s : State) : (complete c s).params = s.params := rfl
@[simp] theorem complete_inbox (c : Completion) (s : State) : (complete c s).inbox = s.inbox := rfl
@[simp] theorem complete_trace (c : Completion) (s : State) : (complete c s).trace = s.trace := rfl

@[simp] theorem raiseError_cmd (e : ErrorKind) (s : State) : (raiseError e s).cmd = s.cmd := rfl
@[simp] theorem raiseError_status (e : ErrorKind) (s : State) : (raiseError e s).status = errorStatus e := rfl
@[simp] theorem raiseError_out (e : ErrorKind) (s : State) : (raiseError e s).out = none := rfl
@[simp] theorem raiseError_params (e : ErrorKind) (s : State) : (raiseError e s).params = s.params := rfl
@[simp] theorem raiseError_inbox (e : ErrorKind) (s : State) : (raiseError e s).inbox = s.inbox := rfl
@[simp] theorem raiseError_trace (e : ErrorKind) (s : State) : (raiseError e s).trace = s.trace := rfl

@[simp] theorem resetBlock_cmd (s : State) : (resetBlock s).cmd = 0#32 := rfl
@[simp] theorem resetBlock_status (s : State) : (resetBlock s).status = 0#32 := rfl
@[simp] theorem resetBlock_out (s : State) : (resetBlock s).out = none := rfl
@[simp] theorem resetBlock_params (s : State) : (resetBlock s).params = s.params := rfl
@[simp] theorem resetBlock_inbox (s : State) : (resetBlock s).inbox = s.inbox := rfl
@[simp] theorem resetBlock_trace (s : State) : (resetBlock s).trace = s.trace := rfl

@[simp] theorem record_cmd (e : Event) (s : State) : (record e s).cmd = s.cmd := rfl
@[simp] theorem record_status (e : Event) (s : State) : (record e s).status = s.status := rfl
@[simp] theorem record_out (e : Event) (s : State) : (record e s).out = s.out := rfl
@[simp] theorem record_params (e : Event) (s : State) : (record e s).params = s.params := rfl
@[simp] theorem record_inbox (e : Event) (s : State) : (record e s).inbox = s.inbox := rfl
@[simp] theorem record_trace (e : Event) (s : State) : (record e s).trace = s.trace ++ [e] := rfl

@[simp] theorem returnToHost_cmd (s : State) : (returnToHost s).cmd = s.cmd := rfl
@[simp] theorem returnToHost_status (s : State) : (returnToHost s).status = s.status := rfl
@[simp] theorem returnToHost_out (s : State) : (returnToHost s).out = s.out := rfl
@[simp] theorem returnToHost_params (s : State) : (returnToHost s).params = s.params := rfl
@[simp] theorem returnToHost_inbox (s : State) : (returnToHost s).inbox = s.inbox := rfl
@[simp] theorem returnToHost_trace (s : State) : (returnToHost s).trace = s.trace ++ [.returned s.cmd (statusRead s) s.out] := rfl

@[simp] theorem answerRead_cmd (p : Port) (s : State) : (answerRead p s).cmd = s.cmd := rfl
@[simp] theorem answerRead_status (p : Port) (s : State) : (answerRead p s).status = s.status := rfl
@[simp] theorem answerRead_out (p : Port) (s : State) : (answerRead p s).out = s.out := rfl
@[simp] theorem answerRead_params (p : Port) (s : State) : (answerRead p s).params = s.params := rfl
@[simp] theorem answerRead_inbox (p : Port) (s : State) : (answerRead p s).inbox = s.inbox := rfl
@[simp] theorem answerRead_trace (p : Port) (s : State) : (answerRead p s).trace = s.trace ++ [.answered p (readPort p s)] := rfl

@[simp] theorem answerReset_cmd (s : State) : (answerReset s).cmd = 0#32 := rfl
@[simp] theorem answerReset_status (s : State) : (answerReset s).status = 0#32 := rfl
@[simp] theorem answerReset_out (s : State) : (answerReset s).out = none := rfl
@[simp] theorem answerReset_params (s : State) : (answerReset s).params = s.params := rfl
@[simp] theorem answerReset_inbox (s : State) : (answerReset s).inbox = s.inbox := rfl
@[simp] theorem answerReset_trace (s : State) : (answerReset s).trace = s.trace ++ [.wasReset] := rfl

@[simp] theorem dropAction_cmd (s : State) : (dropAction s).cmd = s.cmd := rfl
@[simp] theorem dropAction_status (s : State) : (dropAction s).status = s.status := rfl
@[simp] theorem dropAction_out (s : State) : (dropAction s).out = s.out := rfl
@[simp] theorem dropAction_params (s : State) : (dropAction s).params = s.params := rfl
@[simp] theorem dropAction_inbox (s : State) : (dropAction s).inbox = s.inbox.tail := rfl
@[simp] theorem dropAction_trace (s : State) : (dropAction s).trace = s.trace := rfl

@[simp] theorem pushAction_cmd (a : HostAction) (s : State) : (pushAction a s).cmd = s.cmd := rfl
@[simp] theorem pushAction_status (a : HostAction) (s : State) : (pushAction a s).status = s.status := rfl
@[simp] theorem pushAction_out (a : HostAction) (s : State) : (pushAction a s).out = s.out := rfl
@[simp] theorem pushAction_params (a : HostAction) (s : State) : (pushAction a s).params = s.params := rfl
@[simp] theorem pushAction_inbox (a : HostAction) (s : State) : (pushAction a s).inbox = a :: s.inbox := rfl
@[simp] theorem pushAction_trace (a : HostAction) (s : State) : (pushAction a s).trace = s.trace := rfl

@[simp] theorem withArch_cmd (s : State) (st : Word) (o : Option Value) : (withArch s st o).cmd = s.cmd := rfl
@[simp] theorem withArch_status (s : State) (st : Word) (o : Option Value) : (withArch s st o).status = st := rfl
@[simp] theorem withArch_out (s : State) (st : Word) (o : Option Value) : (withArch s st o).out = o := rfl
@[simp] theorem withArch_params (s : State) (st : Word) (o : Option Value) : (withArch s st o).params = s.params := rfl
@[simp] theorem withArch_inbox (s : State) (st : Word) (o : Option Value) : (withArch s st o).inbox = s.inbox := rfl
@[simp] theorem withArch_trace (s : State) (st : Word) (o : Option Value) : (withArch s st o).trace = s.trace := rfl

@[simp] theorem resetWith_cmd (p : Params) : (State.resetWith p).cmd = 0#32 := rfl
@[simp] theorem resetWith_status (p : Params) : (State.resetWith p).status = 0#32 := rfl
@[simp] theorem resetWith_out (p : Params) : (State.resetWith p).out = none := rfl
@[simp] theorem resetWith_params (p : Params) : (State.resetWith p).params = p := rfl
@[simp] theorem resetWith_inbox (p : Params) : (State.resetWith p).inbox = [] := rfl
@[simp] theorem resetWith_trace (p : Params) : (State.resetWith p).trace = [] := rfl

theorem complete_eq_withArch (c : Completion) (s : State) :
    complete c s = withArch s (completedStatus c.corr c.syn) (some c.out) := rfl

theorem raiseError_eq_withArch (e : ErrorKind) (s : State) :
    raiseError e s = withArch s (errorStatus e) none := rfl

@[simp] theorem withArch_withArch (s : State) (st st' : Word) (o o' : Option Value) :
    withArch (withArch s st o) st' o' = withArch s st' o' := rfl

end Sys2Proof.Machine
end

