-- ==== Sys2Proof/Laws/Exec.lean ====
section
/-! SUPPORT. What a command, an interaction and a step can do, each said once. -/

namespace Sys2Proof.Machine

/-- How each command ends, as a function of the parameters and its operand. -/
def resultOf (p : Params) : Instr → CommandResult
  | .encb x => encbResult x
  | .decb x => decbResult x
  | .frame x => frameResult p x
  | .unframe x => unframeResult p x
  | .encs x => encsResult p x
  | .decs x => decsResult p x
  | .reserved6 _ => .error .illegalCommand
  | .reserved7 _ => .error .illegalCommand

/-- The STATUS a command leaves. -/
def statusOfResult : CommandResult → Word
  | .ok c => completedStatus c.corr c.syn
  | .error e => errorStatus e

/-- The OUT a command leaves. -/
def outOfResult : CommandResult → Option Value
  | .ok c => some c.out
  | .error _ => none

theorem commit_eq_withArch (r : CommandResult) (s : State) :
    commit r s = withArch s (statusOfResult r) (outOfResult r) := by
  cases r <;> rfl

@[simp] theorem commit_cmd (r : CommandResult) (s : State) : (commit r s).cmd = s.cmd := by
  cases r <;> rfl

@[simp] theorem commit_params (r : CommandResult) (s : State) : (commit r s).params = s.params := by
  cases r <;> rfl

@[simp] theorem commit_inbox (r : CommandResult) (s : State) : (commit r s).inbox = s.inbox := by
  cases r <;> rfl

@[simp] theorem commit_trace (r : CommandResult) (s : State) : (commit r s).trace = s.trace := by
  cases r <;> rfl

@[simp] theorem reservedField_statusOfResult (r : CommandResult) : reservedField (statusOfResult r) = 0#22 := by
  cases r <;> exact reservedField_statusWord ..

/-- Every command takes a next state: it commits its result. -/
theorem exec_eq_commit (i : Instr) (s : State) : exec i s = .next (commit (resultOf s.params i) s) := by
  cases i <;> rfl

theorem exec_eq_withArch (i : Instr) (s : State) :
    exec i s = .next (withArch s (statusOfResult (resultOf s.params i)) (outOfResult (resultOf s.params i))) := by
  rw [exec_eq_commit, commit_eq_withArch]

/-- How an issued word ends. -/
def resultOfIssue (p : Params) (w : Word) (x : Value) : CommandResult :=
  match decode w x with
  | .ok i => resultOf p i
  | .error .reservedBits => .error .illegalCommand

theorem runCommand_eq_commit (w : Word) (x : Value) (s : State) :
    runCommand w x s = .next (commit (resultOfIssue s.params w x) s) := by
  unfold runCommand resultOfIssue
  cases decode w x with
  | ok i => exact exec_eq_commit i s
  | error e => cases e; rfl

/-- An `Issue` takes a next state: CMD is the word, STATUS and OUT the command's, and the trace has the return. -/
theorem issue_eq (w : Word) (x : Value) (s : State) :
    issue w x s = .next { s with
      cmd := w
      status := statusOfResult (resultOfIssue s.params w x)
      out := outOfResult (resultOfIssue s.params w x)
      trace := s.trace ++ [.returned w (statusOfResult (resultOfIssue s.params w x))
        (outOfResult (resultOfIssue s.params w x))] } := by
  have h := mask_of_reservedField _ (reservedField_statusOfResult (resultOfIssue s.params w x))
  simp [issue, runCommand_eq_commit, andThen, commit_eq_withArch, returnToHost, record, withArch, latchCommand,
    statusRead, h]

theorem step_nil (s : State) (h : s.inbox = []) : step s = .next s := by
  simp [step, h]

theorem step_cons (s : State) (a : HostAction) (rest : List HostAction) (h : s.inbox = a :: rest) :
    step s = interact a { s with inbox := rest } := by
  simp [step, h, dropAction]

theorem step_issue (s : State) (w : Word) (x : Value) (rest : List HostAction)
    (h : s.inbox = .issue w x :: rest) : step s = issue w x { s with inbox := rest } :=
  step_cons s _ rest h

/-- Everything a step can do. -/
theorem step_cases (s t : State) (h : step s = .next t) :
    (s.inbox = [] ∧ t = s) ∨
    (∃ w x rest, s.inbox = .issue w x :: rest ∧ t = { s with
      cmd := w
      status := statusOfResult (resultOfIssue s.params w x)
      out := outOfResult (resultOfIssue s.params w x)
      inbox := rest
      trace := s.trace ++ [.returned w (statusOfResult (resultOfIssue s.params w x))
        (outOfResult (resultOfIssue s.params w x))] }) ∨
    (∃ p rest, s.inbox = .read p :: rest ∧ t = { s with
      inbox := rest, trace := s.trace ++ [.answered p (readPort p s)] }) ∨
    (∃ rest, s.inbox = .reset :: rest ∧ t = { s with
      cmd := 0#32, status := 0#32, out := none, inbox := rest, trace := s.trace ++ [.wasReset] }) := by
  match hi : s.inbox with
  | [] =>
    rw [step_nil s hi] at h
    exact .inl ⟨rfl, by cases h; rfl⟩
  | .issue w x :: rest =>
    rw [step_issue s w x rest hi, issue_eq] at h
    exact .inr (.inl ⟨w, x, rest, rfl, by cases h; rfl⟩)
  | .read p :: rest =>
    rw [step_cons s _ rest hi] at h
    exact .inr (.inr (.inl ⟨p, rest, rfl, by cases h; cases p <;> rfl⟩))
  | .reset :: rest =>
    rw [step_cons s _ rest hi] at h
    exact .inr (.inr (.inr ⟨rest, rfl, by cases h; rfl⟩))

end Sys2Proof.Machine
end

