-- ==== Sys2Proof/Laws/PerInstr.lean ====
section
/-! SUPPORT. One statement per command about its encoding: its word is below 8, so it sets no reserved bit
(30_encoding R62), and its operand travels beside it unchanged (R66). -/

namespace Sys2Proof.Laws.EncodingIsPlain

def Statement (i : Instr) : Prop :=
  (encode i).1.toNat < 8 ∧ rsvField (encode i).1 = 0#29 ∧ (encode i).2 = i.operand

theorem encb (x : Value) : Statement (.encb x) := ⟨by simp [encode], by simp [encode, rsvField], rfl⟩

theorem decb (x : Value) : Statement (.decb x) := ⟨by simp [encode], by simp [encode, rsvField], rfl⟩

theorem frame (x : Value) : Statement (.frame x) := ⟨by simp [encode], by simp [encode, rsvField], rfl⟩

theorem unframe (x : Value) : Statement (.unframe x) := ⟨by simp [encode], by simp [encode, rsvField], rfl⟩

theorem encs (x : Value) : Statement (.encs x) := ⟨by simp [encode], by simp [encode, rsvField], rfl⟩

theorem decs (x : Value) : Statement (.decs x) := ⟨by simp [encode], by simp [encode, rsvField], rfl⟩

theorem reserved6 (x : Value) : Statement (.reserved6 x) := ⟨by simp [encode], by simp [encode, rsvField], rfl⟩

theorem reserved7 (x : Value) : Statement (.reserved7 x) := ⟨by simp [encode], by simp [encode, rsvField], rfl⟩

end Sys2Proof.Laws.EncodingIsPlain
end

