-- ==== Sys2Proof/Laws/Results.lean ====
section
/-! SUPPORT. How each command ends, case by case, and the status words it leaves; with `exec_eq_withArch` these are
each command's whole behaviour. -/

namespace Sys2Proof.Machine

theorem encbResult_of_length (d : List Bit) (h : d.length = 26) :
    encbResult (.bits d) = .ok { out := .bits (encodeBlock d), corr := false, syn := 0#5 } := by
  simp [encbResult, takeBits, h, bind, Except.bind]

theorem encbResult_of_length_ne (d : List Bit) (h : d.length ≠ 26) :
    encbResult (.bits d) = .error .malformedWord := by
  simp [encbResult, takeBits, h, bind, Except.bind]

theorem encbResult_of_kind (x : Value) (h : x.kind ≠ .bits) : encbResult x = .error .illegalCommand := by
  cases x <;> first | rfl | exact absurd rfl h

theorem decbResult_of_length (w : List Bit) (h : w.length = 31) :
    decbResult (.bits w) =
      .ok { out := .bits (decodeBlock w).1, corr := (decodeBlock w).2 != 0#5, syn := (decodeBlock w).2 } := by
  simp [decbResult, takeBits, h, bind, Except.bind]

theorem decbResult_of_length_ne (w : List Bit) (h : w.length ≠ 31) :
    decbResult (.bits w) = .error .malformedWord := by
  simp [decbResult, takeBits, h, bind, Except.bind]

theorem decbResult_of_kind (x : Value) (h : x.kind ≠ .bits) : decbResult x = .error .illegalCommand := by
  cases x <;> first | rfl | exact absurd rfl h

theorem frameResult_of_le (p : Params) (b : List Byte) (h : b.length ≤ p.maxLenBytes) :
    frameResult p (.bytes b) = .ok { out := .bits (frameBits b), corr := false, syn := 0#5 } := by
  simp [frameResult, takeBytes, Nat.not_lt.2 h, bind, Except.bind]

theorem frameResult_of_lt (p : Params) (b : List Byte) (h : p.maxLenBytes < b.length) :
    frameResult p (.bytes b) = .error .lengthOverflow := by
  simp [frameResult, takeBytes, h, bind, Except.bind]

theorem frameResult_of_kind (p : Params) (x : Value) (h : x.kind ≠ .bytes) :
    frameResult p x = .error .illegalCommand := by
  cases x <;> first | rfl | exact absurd rfl h

theorem exceeds_eq_false (limit : Option Nat) (n : Nat) (h : withinLimit limit n) : exceeds limit n = false := by
  cases limit with
  | none => rfl
  | some m => simpa [exceeds] using h m rfl

theorem exceeds_eq_true (limit : Option Nat) (m n : Nat) (hm : limit = some m) (h : m < n) : exceeds limit n = true := by
  simp [exceeds, hm, h]

/-- What UNFRAME does, given the outcome of the unframing step. -/
theorem unframeResult_of_within (p : Params) (u : List Bit) (h : withinLimit p.maxDecodeBits u.length) :
    unframeResult p (.bits u) =
      (unframeBits u).map fun b => { out := .bytes b, corr := false, syn := 0#5 } := by
  simp only [unframeResult, takeBits, bind, Except.bind, exceeds_eq_false _ _ h]
  cases unframeBits u <;> rfl

theorem unframeResult_of_over (p : Params) (u : List Bit) (h : exceeds p.maxDecodeBits u.length = true) :
    unframeResult p (.bits u) = .error .lengthOverflow := by
  simp [unframeResult, takeBits, bind, Except.bind, h]

theorem unframeResult_of_kind (p : Params) (x : Value) (h : x.kind ≠ .bits) :
    unframeResult p x = .error .illegalCommand := by
  cases x <;> first | rfl | exact absurd rfl h

/-- The three cases of the unframing step (41_framer R103 to R105). -/
theorem unframeBits_cases (s : List Bit) :
    (s.length < 32 ∧ unframeBits s = .error .framing) ∨
    (32 ≤ s.length ∧ s.length < 32 + 8 * headerCount s ∧ unframeBits s = .error .framing) ∨
    (32 + 8 * headerCount s ≤ s.length ∧
      unframeBits s = .ok (beBytes (intFromBits ((s.drop 32).take (8 * headerCount s))) (headerCount s))) := by
  unfold unframeBits
  by_cases h1 : s.length < 32
  · exact .inl ⟨h1, by rw [if_pos h1]⟩
  · by_cases h2 : s.length < 32 + 8 * headerCount s
    · exact .inr (.inl ⟨by omega, h2, by rw [if_neg h1, if_pos h2]⟩)
    · exact .inr (.inr ⟨by omega, by rw [if_neg h1, if_neg h2]⟩)

theorem encsResult_of_le (p : Params) (b : List Byte) (h : b.length ≤ p.maxLenBytes) :
    encsResult p (.bytes b) = .ok { out := .words (encodeStream b), corr := false, syn := 0#5 } := by
  simp [encsResult, takeBytes, Nat.not_lt.2 h, bind, Except.bind]

theorem encsResult_of_lt (p : Params) (b : List Byte) (h : p.maxLenBytes < b.length) :
    encsResult p (.bytes b) = .error .lengthOverflow := by
  simp [encsResult, takeBytes, h, bind, Except.bind]

theorem encsResult_of_kind (p : Params) (x : Value) (h : x.kind ≠ .bytes) :
    encsResult p x = .error .illegalCommand := by
  cases x <;> first | rfl | exact absurd rfl h

/-- What DECS does with well-formed words, given the outcome of the unframing step. -/
theorem decsResult_of_within (p : Params) (ws : List (List Bit))
    (h : withinLimit p.maxDecodeBits (26 * ws.length)) (hw : ∀ w ∈ ws, w.length = 31) :
    decsResult p (.words ws) =
      (unframeBits (decodeData ws)).map fun b => { out := .bytes b, corr := anyCorrected ws, syn := 0#5 } := by
  have ha : ws.any (fun w => w.length != 31) = false := by simpa using hw
  simp only [decsResult, takeWords, bind, Except.bind, exceeds_eq_false _ _ h, ha]
  cases unframeBits (decodeData ws) <;> rfl

theorem decsResult_of_length_ne (p : Params) (ws : List (List Bit))
    (h : withinLimit p.maxDecodeBits (26 * ws.length)) (hw : ∃ w ∈ ws, w.length ≠ 31) :
    decsResult p (.words ws) = .error .malformedWord := by
  have ha : ws.any (fun w => w.length != 31) = true := by simpa using hw
  simp [decsResult, takeWords, bind, Except.bind, exceeds_eq_false _ _ h, ha]

theorem decsResult_of_over (p : Params) (ws : List (List Bit))
    (h : exceeds p.maxDecodeBits (26 * ws.length) = true) :
    decsResult p (.words ws) = .error .lengthOverflow := by
  simp [decsResult, takeWords, bind, Except.bind, h]

theorem decsResult_of_kind (p : Params) (x : Value) (h : x.kind ≠ .words) :
    decsResult p x = .error .illegalCommand := by
  cases x <;> first | rfl | exact absurd rfl h

theorem completedStatus_plain : completedStatus false 0#5 = 0x00000008#32 := by decide

theorem completedStatus_corrected : completedStatus true 0#5 = 0x00000018#32 := by decide

/-- DECB's status word by its fields' places (10_state R26). -/
theorem completedStatus_syndrome : ∀ syn : Syndrome, completedStatus (syn != 0#5) syn =
    BitVec.ofNat 32 (0x8 + (if syn = 0#5 then 0 else 0x10) + syn.toNat * 2 ^ 5) := by decide

theorem errorStatus_code (e : ErrorKind) : errorStatus e = e.code.setWidth 32 := by
  cases e <;> decide

end Sys2Proof.Machine
end

