-- ==== Sys2Proof/Tests/Slice0.lean ====
section
/-! SUPPORT. The model's own tests. Expected values come from spec/95_test_vectors (each theorem names its vector) and
the rules; hexadecimal values are packed views (00_scope R16). The `witness_…` theorems show, for each statement of
Certificates/Slice0/Obligations that has hypotheses, states and operands that meet them, at the edges of each clause. -/

namespace Sys2Proof.Tests

-- One proof at a time: the stacks of many small proofs side by side need more address space than the check gives.
set_option Elab.async false

open Sys2Proof Sys2Proof.Machine

/-- The parameters of the vectors V-P1 to V-P8. -/
def smallParams : Params :=
  { lanes := 1, maxLenBytes := 3, maxDecodeBits := some 78 }

/-- A state that an earlier command left something in. -/
def usedState (p : Params) : State :=
  { State.resetWith p with status := 0xFFFFFFFF#32, out := some (.bytes [0xAA#8]) }

/-- STATUS and OUT after a command. -/
def after (i : Instr) (p : Params) : Option (Word × Option Value) :=
  match exec i (usedState p) with
  | .next t => some (t.status, t.out)
  | .fault _ => none
  | .refused _ => none

/-- CMD, STATUS and OUT after a step. -/
def afterStep (s : State) : Option (Word × Word × Option Value) :=
  match step s with
  | .next t => some (archState t)
  | .fault _ => none
  | .refused _ => none

/-- A BITS operand by its packed view. -/
def packed (v n : Nat) : Value :=
  .bits (bitsFromInt v n)

/-- A WORDS operand by the packed views of 31-bit words. -/
def packedWords (vs : List Nat) : Value :=
  .words (vs.map fun v => bitsFromInt v 31)

/-- A list of bits that are all zero. -/
def zeroBits (n : Nat) : List Bit :=
  List.replicate n false

/-- The state whose host is about to do these things. -/
def pending (p : Params) (l : List HostAction) : State :=
  { usedState p with inbox := l }

/- Well-formedness: each check refuses an ill-formed command. -/

theorem test_wellFormed_accepts : WellFormed (.encb (.bits (zeroBits 26))) = true := by decide

theorem test_wellFormed_refuses_reserved_op : WellFormed (.reserved6 (.bits [])) = false := by decide

theorem test_wellFormed_refuses_kind : WellFormed (.encb (.bytes [0x00#8])) = false := by decide

theorem test_wellFormed_refuses_data_length : WellFormed (.encb (.bits (zeroBits 25))) = false := by decide

theorem test_wellFormed_refuses_word_length : WellFormed (.decb (.bits (zeroBits 30))) = false := by decide

theorem test_wellFormed_refuses_element_length :
    WellFormed (.decs (.words [zeroBits 31, zeroBits 30])) = false := by decide

/- Decoding: each row's word written out from the table of R61. -/

theorem test_decode_encb : decode 0b00000000000000000000000000000000#32 (.bits []) = .ok (.encb (.bits [])) := by decide

theorem test_decode_decb : decode 0b00000000000000000000000000000001#32 (.bits []) = .ok (.decb (.bits [])) := by decide

theorem test_decode_frame : decode 0b00000000000000000000000000000010#32 (.bytes []) = .ok (.frame (.bytes [])) := by
  decide

theorem test_decode_unframe : decode 0b00000000000000000000000000000011#32 (.bits []) = .ok (.unframe (.bits [])) := by
  decide

theorem test_decode_encs : decode 0b00000000000000000000000000000100#32 (.bytes []) = .ok (.encs (.bytes [])) := by
  decide

theorem test_decode_decs : decode 0b00000000000000000000000000000101#32 (.words []) = .ok (.decs (.words [])) := by
  decide

theorem test_decode_reserved6 : decode 0b00000000000000000000000000000110#32 (.bits []) = .ok (.reserved6 (.bits [])) := by
  decide

theorem test_decode_reserved7 : decode 0b00000000000000000000000000000111#32 (.bits []) = .ok (.reserved7 (.bits [])) := by
  decide

theorem test_decode_rejects_reserved_bits :
    decode 0x00000008#32 (.bits []) = .error .reservedBits ∧ decode 0x80000000#32 (.bits []) = .error .reservedBits := by
  decide

theorem test_decodeTableWord : decodeTableWord 32 5 = some (.decs (.words [zeroBits 31, zeroBits 31])) ∧
    decodeTableWord 32 8 = none := by decide

theorem test_withFetchWord_runs_decb :
    afterStep (State.reset.withFetchWord 32 1) = some (0x00000001#32, 0x00000008#32, some (.bits (zeroBits 26))) := by
  decide

/- Commands. -/

/-- V-E31. -/
theorem test_encb_1234567 : after (.encb (packed 0x1234567 26)) Params.default =
    some (0x00000008#32, some (packed 0x64464567 31)) := by decide +kernel

/-- V-E33. -/
theorem test_encb_25_bits : after (.encb (.bits (List.replicate 25 true))) Params.default =
    some (0x00000001#32, none) := by decide

/-- V-D16: a flipped parity position. -/
theorem test_decb_position_16 : after (.decb (packed 0x6446C567 31)) Params.default =
    some (0x00000218#32, some (packed 0x1234567 26)) := by decide +kernel

/-- V-D34: a double error. -/
theorem test_decb_double_error : after (.decb (packed 0x70464567 31)) Params.default =
    some (0x000000D8#32, some (packed 0x2A34567 26)) := by decide +kernel

/-- V-F7. -/
theorem test_frame_80_00_7F : after (.frame (.bytes [0x80#8, 0x00#8, 0x7F#8])) Params.default =
    some (0x00000008#32, some (packed 0x0000000380007F 56)) := by decide +kernel

/-- V-P1. -/
theorem test_frame_over_limit : after (.frame (.bytes [0x01#8, 0x02#8, 0x03#8, 0x04#8])) smallParams =
    some (0x00000005#32, none) := by decide

/-- V-U2: a trailing bit. -/
theorem test_unframe_trailing_bit : after (.unframe (packed (0x00000001A5 * 2 + 1) 41)) Params.default =
    some (0x00000008#32, some (.bytes [0xA5#8])) := by decide +kernel

/-- V-U8: one content bit too few. -/
theorem test_unframe_39_bits : after (.unframe (packed 0xC0 39)) Params.default =
    some (0x00000002#32, none) := by decide +kernel

/-- V-S4. -/
theorem test_encs_41_42 : after (.encs (.bytes [0x41#8, 0x42#8])) Params.default =
    some (0x00000008#32, some (packedWords [0x00000000, 0x40C89420])) := by decide +kernel

/-- V-P4. -/
theorem test_encs_at_limit : after (.encs (.bytes [0x01#8, 0x02#8, 0x03#8])) smallParams =
    some (0x00000008#32, some (packedWords [0x00000000, 0x20E01020, 0x43000000])) := by decide +kernel

/-- V-T3: one error in each codeword. -/
theorem test_decs_corrects_each : after (.decs (packedWords [0x40000000, 0x29901020, 0x6B820001])) Params.default =
    some (0x00000018#32, some (.bytes [0x01#8, 0x02#8, 0x03#8, 0x04#8])) := by decide +kernel

/-- V-T8: a bad element beyond the codewords needed. -/
theorem test_decs_bad_element : after (.decs (.words [bitsFromInt 0 31, bitsFromInt 0x29801020 31,
    bitsFromInt 0x6B820000 31, zeroBits 30])) Params.default = some (0x00000001#32, none) := by decide +kernel

/-- V-C1. -/
theorem test_reserved6 : after (.reserved6 (packed 0 26)) Params.default = some (0x00000004#32, none) := by decide

/-- V-C2. -/
theorem test_reserved7 : after (.reserved7 (.bytes [])) Params.default = some (0x00000004#32, none) := by decide

/-- V-C5: the reserved bits are checked before the length. -/
theorem test_step_reserved_bits : afterStep (pending Params.default [.issue 0x80000001#32 (.bits (zeroBits 30))]) =
    some (0x80000001#32, 0x00000004#32, none) := by decide

/-- V-P8: the size limit is checked before the element lengths. -/
theorem test_step_size_before_length : afterStep (pending smallParams [.issue 0x00000005#32
    (.words [zeroBits 31, zeroBits 31, zeroBits 31, zeroBits 30])]) = some (0x00000005#32, 0x00000005#32, none) := by
  decide

/-- P1, step 1: `ENCB 0x1234567`. -/
theorem test_assembleLine_encb :
    assembleLine ['E', 'N', 'C', 'B', ' ', '0', 'x', '1', '2', '3', '4', '5', '6', '7'] =
      some (.issue 0x00000000#32 (packed 0x1234567 26)) := by decide +kernel

/-- V-C7: `.cmd 0x00000002 0b00000`. -/
theorem test_assembleLine_cmd :
    assembleLine ['.', 'c', 'm', 'd', ' ', '0', 'x', '0', '0', '0', '0', '0', '0', '0', '2', ' ', '0', 'b', '0', '0',
      '0', '0', '0'] = some (.issue 0x00000002#32 (.bits (zeroBits 5))) := by decide +kernel

/-- `FRAME [A5, 01]`, in the form of R70. -/
theorem test_assembleLine_frame :
    assembleLine ['F', 'R', 'A', 'M', 'E', ' ', '[', 'A', '5', ',', ' ', '0', '1', ']'] =
      some (.issue 0x00000002#32 (.bytes [0xA5#8, 0x01#8])) := by decide +kernel

/-- H5: a token of 30 characters. -/
theorem test_parse_short_token : parseText (List.replicate 30 0x30#8) = none := by decide +kernel

/-- H8: 0x1C does not separate tokens. -/
theorem test_parse_0x1C : parseText (List.replicate 31 0x30#8 ++ [0x1C#8] ++ List.replicate 31 0x30#8) = none := by
  decide +kernel

/-- H3: mixed separators. -/
theorem test_parse_separators : parseText ([0x20#8, 0x20#8] ++ List.replicate 31 0x30#8 ++ [0x0A#8, 0x09#8] ++
    List.replicate 31 0x30#8 ++ [0x20#8, 0x0D#8, 0x0A#8]) = some [zeroBits 31, zeroBits 31] := by decide +kernel

/- Witnesses. -/

/-- A byte sequence and a codeword list that the small limits just admit. -/
def threeBytes : List Byte :=
  [0x01#8, 0x02#8, 0x03#8]

theorem witness_DecodeAndEncodeAgree : decode 0x00000005#32 (.words []) = .ok (.decs (.words [])) := by decide

theorem witness_EveryOtherWordRaisesIllegalCommand :
    rsvField 0x00000008#32 ≠ 0 ∧ rsvField 0x80000005#32 ≠ 0 ∧ opField 0x00000006#32 = 0b110#3 ∧
    opField 0x00000007#32 = 0b111#3 := by decide

theorem witness_WrongOperandKindRaisesIllegalCommand :
    (Instr.encb (.bytes [])).operandKind = some .bits ∧ (Instr.encb (.bytes [])).operand.kind ≠ .bits ∧
    (Instr.decs (.bits [])).operandKind = some .words ∧ (Instr.decs (.bits [])).operand.kind ≠ .words := by decide

theorem witness_AssemblerFormsWriteTheirOperands :
    0x3FFFFFF < 2 ^ 26 ∧ 2 ^ 26 ≤ 0x4000000 ∧ 0x7FFFFFFF < 2 ^ 31 ∧ 2 ^ 31 ≤ 0x80000000 := by decide

theorem witness_StepMakesTheOldestInteraction :
    (pending smallParams [.issue 0xFFFFFFFF#32 (.bits [])]).inbox = .issue 0xFFFFFFFF#32 (.bits []) :: [] ∧
    (pending smallParams [.read .cmd]).inbox = .read .cmd :: [] ∧ (pending smallParams [.reset]).inbox = .reset :: [] :=
  ⟨rfl, rfl, rfl⟩

theorem witness_InvariantHoldsAfterReset : smallParams.Legal := by decide

/-- A state that meets the invariant and is about to run ENCB. -/
theorem witness_EveryStepKeepsTheInvariant :
    Inv (State.reset.withFetchWord 32 0) ∧ ∃ t, step (State.reset.withFetchWord 32 0) = .next t :=
  ⟨by decide, _, rfl⟩

theorem witness_NothingHappensUntilTheHostActs : (usedState smallParams).inbox = [] := rfl

theorem witness_StepRunsTheDecodedCommand :
    (pending smallParams [.issue 0x00000000#32 (.bits [])]).inbox = .issue 0x00000000#32 (.bits []) :: [] ∧
    decode 0x00000000#32 (.bits []) = .ok (.encb (.bits [])) := by decide

theorem witness_EffectIsAFunctionOfWordAndOperand :
    State.reset.params = (usedState Params.default).params ∧
    archState State.reset ≠ archState (usedState Params.default) := by decide

theorem witness_ReadsChangeNothing : reservedField 0x000003FF#32 = 0#22 := by decide

theorem witness_ErrorEntryWritesCodeAndNone :
    (after (.encb (.bits [])) smallParams).map (fun r => errField r.1) = some 0b001#3 := by decide

/-- One issue for each rank of R149, and one with no failing check. -/
theorem witness_FirstFailingCheckDecidesTheError :
    rsvField 0x80000001#32 ≠ 0 ∧ (rsvField 0x00000006#32 = 0 ∧ opField 0x00000006#32 = 0b110#3) ∧
    (Instr.frame (.bits [])).operand.kind ≠ .bytes ∧
    overLimit smallParams (.decs (.words (List.replicate 4 []))) = true ∧
    (overLimit smallParams (.decs (.words (List.replicate 3 []))) = false ∧
      (Instr.decs (.words (List.replicate 3 []))).lengthOk = false) ∧
    ((Instr.frame (.bytes threeBytes)).lengthOk = true ∧ unframedBits (.frame (.bytes threeBytes)) = none) ∧
    unframedBits (.unframe (.bits (zeroBits 31))) = some (zeroBits 31) ∧
    32 + 8 * intFromBits ((bitsFromInt 0x80 39).take 32) = 40 ∧
    32 + 8 * intFromBits ((zeroBits 32).take 32) ≤ (zeroBits 32).length := by decide +kernel

theorem witness_EncbEncodesOneBlock :
    (zeroBits 26).length = 26 ∧ (zeroBits 25).length ≠ 26 ∧ (zeroBits 27).length ≠ 26 ∧
    (Value.bytes []).kind ≠ .bits ∧ (Value.words []).kind ≠ .bits := by decide

/-- For the statements about every block of 26 bits: ParityBitsAreTheMaskedParities, CodewordsHaveZeroSyndrome,
EncodingIsLinear, SyndromeIsTheXorOfPositions, EverySingleErrorIsCorrected. -/
theorem witness_blocks_of_26_bits :
    (bitsFromInt 0x3FFFFFF 26).length = 26 ∧ (bitsFromInt 0x1234567 26).length = 26 := by decide +kernel

/-- Also for SyndromeBitsAreTheMaskedParities and SyndromeIsTheXorOfPositions. -/
theorem witness_DecbDecodesOneWord :
    (bitsFromInt 0x7FFFFFFF 31).length = 31 ∧ (zeroBits 30).length ≠ 31 ∧ (zeroBits 32).length ≠ 31 ∧
    (syndrome (bitsFromInt 0x40000000 31)).toNat ∈ [1, 2, 4, 8, 16] ∧
    (syndrome (bitsFromInt 0x00008000 31)).toNat ∈ [1, 2, 4, 8, 16] ∧ (Value.words []).kind ≠ .bits := by decide +kernel

theorem witness_EveryDoubleErrorIsMiscorrected :
    (zeroBits 26).length = 26 ∧ 1 ≤ 1 ∧ 31 ≤ 31 ∧ 1 ≠ 31 ∧ 16 ∈ [1, 2, 4, 8, 16] := by decide

/-- The pattern {1, 2, 3} has XOR 0, the pattern {31} has not. -/
theorem witness_HeavierErrorsGetNoGuarantee :
    (bitsFromInt 0x70000000 31).length = 31 ∧ xorOfPositions (bitsFromInt 0x70000000 31) = 0#5 ∧
    (bitsFromInt 0x00000001 31).length = 31 ∧ xorOfPositions (bitsFromInt 0x00000001 31) ≠ 0#5 := by decide +kernel

theorem witness_FrameEmitsHeaderAndContent :
    threeBytes.length ≤ (usedState smallParams).params.maxLenBytes ∧
    (usedState smallParams).params.maxLenBytes < (threeBytes ++ [0x04#8]).length ∧
    (Value.bits []).kind ≠ .bytes ∧ 4 ≤ (usedState Params.default).params.maxLenBytes := by decide

theorem witness_UnframeReadsHeaderAndContent :
    withinLimit (usedState smallParams).params.maxDecodeBits (zeroBits 78).length ∧
    (zeroBits 31).length < 32 ∧
    (32 ≤ (bitsFromInt 0x80 39).length ∧ (bitsFromInt 0x80 39).length < 32 + 8 * intFromBits ((bitsFromInt 0x80 39).take 32)) ∧
    32 + 8 * intFromBits ((bitsFromInt 0x1A5 40).take 32) ≤ (bitsFromInt 0x1A5 40).length ∧
    ((usedState smallParams).params.maxDecodeBits = some 78 ∧ 78 < (zeroBits 79).length) ∧
    (Value.bytes []).kind ≠ .bits ∧ withinLimit (usedState smallParams).params.maxDecodeBits 41 := by decide +kernel

theorem witness_UnframeIgnoresTrailingBits :
    withinLimit (usedState smallParams).params.maxDecodeBits (bitsFromInt 0x1A5 40 ++ [true]).length ∧
    32 + 8 * intFromBits ((bitsFromInt 0x1A5 40).take 32) ≤ (bitsFromInt 0x1A5 40).length := by decide +kernel

theorem witness_FramingRoundTrips :
    (usedState smallParams).params.Legal ∧ threeBytes.length ≤ (usedState smallParams).params.maxLenBytes ∧
    withinLimit (usedState smallParams).params.maxDecodeBits (32 + 8 * threeBytes.length + (zeroBits 22).length) := by
  decide

theorem witness_ChunksJoinToThePaddedSequence :
    zeroBits 27 ≠ [] ∧ ∀ b ∈ [zeroBits 26, zeroBits 26], b.length = 26 := by decide

theorem witness_EncsEncodesTheFramedBlocks :
    threeBytes.length ≤ (usedState smallParams).params.maxLenBytes ∧ (List.replicate 63 0xFF#8).length < 64 ∧
    (usedState smallParams).params.maxLenBytes < (threeBytes ++ [0x04#8]).length ∧
    (Value.words []).kind ≠ .bytes ∧ 4 ≤ (usedState Params.default).params.maxLenBytes := by decide

theorem witness_StreamBlockCounts :
    (List.replicate 10 0xFF#8).length ≤ (usedState Params.default).params.maxLenBytes := by decide

/-- Words whose data is too short for a header, too short for what it declares, and long enough. -/
theorem witness_DecsDecodesAndUnframes :
    (withinLimit (usedState smallParams).params.maxDecodeBits (26 * [zeroBits 31, zeroBits 31, zeroBits 31].length) ∧
      ∀ w ∈ [zeroBits 31, zeroBits 31, zeroBits 31], w.length = 31) ∧
    (decodeData [zeroBits 31]).length < 32 ∧
    (decodeData [bitsFromInt 0x00000003 31, zeroBits 31]).length = 52 ∧
    52 < 32 + 8 * intFromBits ((decodeData [bitsFromInt 0x00000003 31, zeroBits 31]).take 32) ∧
    32 + 8 * intFromBits ((decodeData [zeroBits 31, zeroBits 31]).take 32) ≤ (decodeData [zeroBits 31, zeroBits 31]).length ∧
    (∃ w ∈ [zeroBits 31, zeroBits 30], w.length ≠ 31) ∧
    ((usedState smallParams).params.maxDecodeBits = some 78 ∧ 78 < 26 * (List.replicate 4 (zeroBits 31)).length) ∧
    (Value.bits []).kind ≠ .words ∧ withinLimit (usedState smallParams).params.maxDecodeBits 78 := by decide +kernel

/-- Two codewords, the first received with position 1 flipped, and one word appended, just within the limit. -/
theorem witness_StreamsRoundTripUnderSingleErrors :
    (usedState smallParams).params.Legal ∧ threeBytes.length ≤ (usedState smallParams).params.maxLenBytes ∧
    atMostOneErrorEach [zeroBits 31, zeroBits 31] [flipAt (zeroBits 31) 1, zeroBits 31] ∧
    [flipAt (zeroBits 31) 1, zeroBits 31] ≠ [zeroBits 31, zeroBits 31] ∧
    (∀ w ∈ [zeroBits 31], w.length = 31) ∧
    withinLimit (usedState smallParams).params.maxDecodeBits
      (26 * ([flipAt (zeroBits 31) 1, zeroBits 31] ++ [zeroBits 31]).length) :=
  ⟨by decide, by decide, .cons (.inr ⟨1, by decide, by decide, rfl⟩) (.cons (.inl rfl) .nil), by decide, by decide, by decide⟩

theorem witness_LanesAreNotObservable :
    threeBytes.length ≤ (usedState smallParams).params.maxLenBytes ∧
    (∀ m < (chunk26 (frameBits threeBytes)).length, m ∈ [2, 0, 1]) ∧
    (∀ m < [zeroBits 31, zeroBits 31, zeroBits 31].length, m ∈ [2, 0, 1]) ∧
    withinLimit (usedState smallParams).params.maxDecodeBits (26 * [zeroBits 31, zeroBits 31, zeroBits 31].length) ∧
    (∀ w ∈ [zeroBits 31, zeroBits 31, zeroBits 31], w.length = 31) ∧ 1 ≤ 1 ∧ 1 < 2 := by decide +kernel

theorem witness_SerializeWritesTokensAndSingleSpaces :
    [zeroBits 31, zeroBits 31] ≠ [] ∧ ∀ w ∈ [zeroBits 31, zeroBits 31], w.length = 31 := by decide

theorem witness_TokensAreTheMaximalRuns :
    (∀ c ∈ [0x20#8], isSeparator c = true) ∧ (∀ c ∈ [0x30#8], isSeparator c = false) ∧
    ∀ r ∈ [([0x31#8], [0x0A#8])], r.1 ≠ [] ∧ r.2 ≠ [] ∧ (∀ c ∈ r.1, isSeparator c = false) ∧
      ∀ c ∈ r.2, isSeparator c = true := by decide

theorem witness_ParseAcceptsExactlyTheBinaryTokens :
    (∀ t ∈ tokens (List.replicate 31 0x31#8), t.length = 31 ∧ ∀ c ∈ t, c = 0x30#8 ∨ c = 0x31#8) ∧
    (∃ t ∈ tokens (List.replicate 32 0x31#8), t.length ≠ 31) ∧
    (∃ t ∈ tokens [0x32#8], ∃ c ∈ t, c ≠ 0x30#8 ∧ c ≠ 0x31#8) := by decide +kernel

theorem witness_FormatErrorIssuesNoCommand :
    ∃ t ∈ tokens (List.replicate 30 0x30#8), t.length ≠ 31 ∨ ∃ c ∈ t, c ≠ 0x30#8 ∧ c ≠ 0x31#8 := by decide +kernel

theorem witness_TextPathsIssueTheStreamCommands : parseText [0x20#8] = some [] := by decide

theorem witness_TextRoundTrips :
    (usedState smallParams).params.Legal ∧ threeBytes.length ≤ (usedState smallParams).params.maxLenBytes := by decide

end Sys2Proof.Tests
end

namespace Sys2Proof.Machine

/-! ## The fields of the STATUS word a command leaves (10_state R26 to R31) -/

@[simp] theorem validField_statusOfResult (r : CommandResult) :
    validField (statusOfResult r) = (outOfResult r).isSome := by
  cases r with
  | ok c => exact validField_statusWord ..
  | error e => exact validField_statusWord ..

theorem ErrorKind.code_ne_zero (e : ErrorKind) : e.code ≠ 0b000#3 := by
  cases e <;> decide

theorem errField_statusOfResult_eq_zero_iff (r : CommandResult) :
    errField (statusOfResult r) = 0b000#3 ↔ (outOfResult r).isSome = true := by
  cases r with
  | ok c => simp [statusOfResult, completedStatus, outOfResult]
  | error e => simp [statusOfResult, errorStatus, outOfResult, e.code_ne_zero]

@[simp] theorem reservedField_statusRead (s : State) : reservedField (statusRead s) = 0#22 := by
  apply BitVec.eq_of_getLsbD_eq
  intro i hi
  have hmask : (0x000003FF#32).getLsbD (10 + i) = false := by interval_cases i <;> decide
  simp [reservedField, statusRead, hi, hmask]

/-! ## Words and their commands (30_encoding R61) -/

/-- The word and operand of a decoded command are the ones it encodes to. -/
theorem encode_of_decode {w : Word} {x : Value} {i : Instr} (h : decode w x = .ok i) : encode i = (w, x) := by
  have hlt : w.toNat < 8 := by
    by_contra hge
    rw [decode_error_of_le w x (by omega)] at h
    cases h
  have hw : w = BitVec.ofNat 32 w.toNat := by simp
  rw [decode_ok_of_lt w x hlt] at h
  cases h
  generalize w.toNat = n at hlt hw
  subst hw
  interval_cases n <;> rfl

/-! ## Codewords, framed sequences and unframed bytes -/

/-- Every check of a codeword is zero (40_codec R86). -/
theorem checkSum_encodeBlock (d : List Bit) (p : Nat) (hp : p ∈ parityPos) : checkSum (encodeBlock d) p = false := by
  rw [checkSum_eq _ p hp, bitAt_encodeBlock_parity d p hp, Bool.xor_self]

@[simp] theorem syndrome_encodeBlock (d : List Bit) : syndrome (encodeBlock d) = 0#5 := by
  have hpow : ∀ k < 5, 2 ^ k ∈ parityPos := by decide
  apply BitVec.eq_of_getLsbD_eq
  intro k hk
  rw [syndrome_getLsbD _ k hk, checkSum_encodeBlock d _ (hpow k hk), BitVec.getLsbD_zero]

/-- A header of 32 bits counts fewer than 2^32 bytes (41_framer R101). -/
theorem headerCount_lt (s : List Bit) : headerCount s < 2 ^ 32 :=
  (intFromBits_lt (s.take 32)).trans_le (Nat.pow_le_pow_right (by decide) (List.length_take_le 32 s))

/-- How the unframing step ends: FRAMING, or fewer than 2^32 bytes (41_framer R103 to R105). -/
theorem unframeBits_error_or_length_lt (s : List Bit) :
    unframeBits s = .error .framing ∨ ∃ b, unframeBits s = .ok b ∧ b.length < 2 ^ 32 := by
  obtain ⟨-, h⟩ | ⟨-, -, h⟩ | ⟨-, h⟩ := unframeBits_cases s
  · exact .inl h
  · exact .inl h
  · exact .inr ⟨_, h, by simpa using headerCount_lt s⟩

/-- A length that does not exceed a limit is within it (20_memory R55). -/
theorem withinLimit_of_exceeds {limit : Option Nat} {n : Nat} (h : ¬ exceeds limit n = true) : withinLimit limit n := by
  rintro m rfl
  simpa [exceeds] using h

/-! ## What a command's result may be -/

/-- A completion that the command word `w` may have: the result fits it (10_state R32), CORR is set by DECB and DECS
only, SYN by DECB only, and DECB sets CORR exactly when SYN is nonzero (R29, R30). -/
structure CompletionFits (w : Word) (c : Completion) : Prop where
  result : resultFits w c.out = true
  corr_only : c.corr = true → w = 1#32 ∨ w = 5#32
  syn_only : c.syn ≠ 0#5 → w = 1#32
  corr_iff : w = 1#32 → c.corr = (c.syn != 0#5)

/-- A way to end that the command word `w` may have. SYNDROME_RANGE is never raised (60_exceptions R143). -/
def EndsWell (w : Word) : CommandResult → Prop
  | .ok c => CompletionFits w c
  | .error e => e ≠ .syndromeRange

theorem endsWell_error (w : Word) {e : ErrorKind} (h : e ≠ .syndromeRange) : EndsWell w (.error e) := h

theorem endsWell_illegalCommand (w : Word) : EndsWell w (.error .illegalCommand) :=
  endsWell_error w (by decide)

/-- A completion with CORR and SYN zero asks of a word other than DECB's only that the result fits. -/
theorem completionFits_plain {w : Word} {v : Value} (hw : w ≠ 1#32) (hv : resultFits w v = true) :
    CompletionFits w { out := v, corr := false, syn := 0#5 } where
  result := hv
  corr_only := nofun
  syn_only h := absurd rfl h
  corr_iff h := absurd h hw

/-- What is left in the registers by a command that ends well is coherent (10_state R27 to R33). -/
theorem coherent_of_endsWell {w : Word} {r : CommandResult} (h : EndsWell w r) :
    coherent w (statusOfResult r) (outOfResult r) = true := by
  cases r with
  | ok c =>
    obtain ⟨hres, hcorr, hsyn, hiff⟩ := h
    have hcorr' : c.corr = false ∨ w = 1#32 ∨ w = 5#32 := by
      cases hc : c.corr with
      | false => exact .inl rfl
      | true => exact .inr (hcorr hc)
    have hsyn' : c.syn = 0#5 ∨ w = 1#32 := or_iff_not_imp_left.2 hsyn
    have hiff' : w ≠ 1#32 ∨ c.corr = (c.syn != 0#5) := not_or_of_imp hiff
    simp [coherent, statusOfResult, completedStatus, outOfResult, hres, or_assoc, hcorr', hsyn', hiff']
  | error e =>
    have hcode : [0b000#3, 0b001#3, 0b010#3, 0b100#3, 0b101#3].contains e.code = true := by
      cases e with
      | syndromeRange => exact absurd rfl h
      | malformedWord | framing | illegalCommand | lengthOverflow => decide
    simp only [coherent, statusOfResult, errorStatus, outOfResult, reservedField_statusWord, errField_statusWord,
      validField_statusWord, corrField_statusWord, synField_statusWord, hcode]
    simp

/-! ## Each command ends well -/

theorem encbResult_endsWell (x : Value) : EndsWell 0#32 (encbResult x) := by
  cases x with
  | bits d =>
    by_cases h : d.length = 26
    · rw [encbResult_of_length d h]
      exact completionFits_plain (by decide) (by simp [resultFits])
    · rw [encbResult_of_length_ne d h]
      exact endsWell_error _ (by decide)
  | bytes b => exact endsWell_illegalCommand _
  | words ws => exact endsWell_illegalCommand _

theorem decbResult_endsWell (x : Value) : EndsWell 1#32 (decbResult x) := by
  cases x with
  | bits w =>
    by_cases h : w.length = 31
    · rw [decbResult_of_length w h]
      exact { result := by simp [resultFits], corr_only := fun _ => .inl rfl, syn_only := fun _ => rfl
              corr_iff := fun _ => rfl }
    · rw [decbResult_of_length_ne w h]
      exact endsWell_error _ (by decide)
  | bytes b => exact endsWell_illegalCommand _
  | words ws => exact endsWell_illegalCommand _

theorem frameResult_endsWell {p : Params} (hp : p.Legal) (x : Value) : EndsWell 2#32 (frameResult p x) := by
  cases x with
  | bytes b =>
    by_cases h : b.length ≤ p.maxLenBytes
    · obtain ⟨-, -, hmax, -⟩ := hp
      have hcount : headerCount (frameBits b) = b.length := headerCount_frameBits b (by omega)
      rw [frameResult_of_le p b h]
      exact completionFits_plain (by decide) (by simp [resultFits, hcount])
    · rw [frameResult_of_lt p b (by omega)]
      exact endsWell_error _ (by decide)
  | bits s => exact endsWell_illegalCommand _
  | words ws => exact endsWell_illegalCommand _

theorem unframeResult_endsWell (p : Params) (x : Value) : EndsWell 3#32 (unframeResult p x) := by
  cases x with
  | bits u =>
    by_cases h : exceeds p.maxDecodeBits u.length = true
    · rw [unframeResult_of_over p u h]
      exact endsWell_error _ (by decide)
    · rw [unframeResult_of_within p u (withinLimit_of_exceeds h)]
      obtain hu | ⟨b, hu, hb⟩ := unframeBits_error_or_length_lt u
      · rw [hu]
        exact endsWell_error _ (by decide)
      · rw [hu]
        exact completionFits_plain (by decide) (by simpa [resultFits] using hb)
  | bytes b => exact endsWell_illegalCommand _
  | words ws => exact endsWell_illegalCommand _

theorem encsResult_endsWell (p : Params) (x : Value) : EndsWell 4#32 (encsResult p x) := by
  cases x with
  | bytes b =>
    by_cases h : b.length ≤ p.maxLenBytes
    · have hcount : 2 ≤ (32 + 8 * b.length + 25) / 26 := by omega
      rw [encsResult_of_le p b h]
      exact completionFits_plain (by decide) (by simp [resultFits, encodeStream, hcount])
    · rw [encsResult_of_lt p b (by omega)]
      exact endsWell_error _ (by decide)
  | bits s => exact endsWell_illegalCommand _
  | words ws => exact endsWell_illegalCommand _

theorem decsResult_endsWell (p : Params) (x : Value) : EndsWell 5#32 (decsResult p x) := by
  cases x with
  | words ws =>
    by_cases h : exceeds p.maxDecodeBits (26 * ws.length) = true
    · rw [decsResult_of_over p ws h]
      exact endsWell_error _ (by decide)
    by_cases hw : ∀ w ∈ ws, w.length = 31
    · rw [decsResult_of_within p ws (withinLimit_of_exceeds h) hw]
      obtain hu | ⟨b, hu, hb⟩ := unframeBits_error_or_length_lt (decodeData ws)
      · rw [hu]
        exact endsWell_error _ (by decide)
      · rw [hu]
        exact { result := by simpa [resultFits] using hb, corr_only := fun _ => .inr rfl
                syn_only := fun h => absurd rfl h, corr_iff := fun h => absurd h (by decide) }
    · rw [decsResult_of_length_ne p ws (withinLimit_of_exceeds h) (by simpa using hw)]
      exact endsWell_error _ (by decide)
  | bits s => exact endsWell_illegalCommand _
  | bytes b => exact endsWell_illegalCommand _

theorem resultOf_endsWell {p : Params} (hp : p.Legal) (i : Instr) : EndsWell (encode i).1 (resultOf p i) := by
  cases i with
  | encb x => exact encbResult_endsWell x
  | decb x => exact decbResult_endsWell x
  | frame x => exact frameResult_endsWell hp x
  | unframe x => exact unframeResult_endsWell p x
  | encs x => exact encsResult_endsWell p x
  | decs x => exact decsResult_endsWell p x
  | reserved6 x => exact endsWell_illegalCommand _
  | reserved7 x => exact endsWell_illegalCommand _

/-- Every issued word ends well, the illegal ones in ILLEGAL_COMMAND. -/
theorem resultOfIssue_endsWell {p : Params} (hp : p.Legal) (w : Word) (x : Value) :
    EndsWell w (resultOfIssue p w x) := by
  unfold resultOfIssue
  cases hd : decode w x with
  | ok i =>
    have hw : (encode i).1 = w := congrArg Prod.fst (encode_of_decode hd)
    exact hw ▸ resultOf_endsWell hp i
  | error e => cases e; exact endsWell_illegalCommand w

/-! ## The invariant -/

theorem coherent_reset : coherent 0#32 0#32 none = true := by decide

/-- Settles O9: an `Issue` leaves and reports a coherent outcome because its command ends well; the host's other
interactions report no outcome and leave the registers alone or at their reset values. -/
theorem everyStepKeepsTheInvariant : Obligations.EveryStepKeepsTheInvariant := by
  unfold Obligations.EveryStepKeepsTheInvariant
  rintro s t ⟨hp, hregs, htrace⟩ hstep
  obtain ⟨-, rfl⟩ | ⟨w, x, rest, -, rfl⟩ | ⟨p, rest, -, rfl⟩ | ⟨rest, -, rfl⟩ := step_cases s t hstep
  · exact ⟨hp, hregs, htrace⟩
  · have hnew := coherent_of_endsWell (resultOfIssue_endsWell hp w x)
    exact ⟨hp, hnew, by simp [htrace, eventCoherent, hnew]⟩
  · exact ⟨hp, hregs, by simp [htrace, eventCoherent]⟩
  · exact ⟨hp, coherent_reset, by simp [htrace, eventCoherent]⟩

/-! ## Commands and what they depend on -/

/-- Settles O14: how an issued word ends is a function of the parameters, the word and the operand. -/
theorem effectIsAFunctionOfWordAndOperand : Obligations.EffectIsAFunctionOfWordAndOperand := by
  unfold Obligations.EffectIsAFunctionOfWordAndOperand
  intro s s' w x hp
  have hs := issue_eq w x s
  rw [hp] at hs
  exact ⟨_, _, _, _, hs, rfl, issue_eq w x s', rfl⟩

/-- Settles O18: a read masks the reserved bits, and every status word a command writes has them zero. -/
theorem reservedStatusBitsReadZero : Obligations.ReservedStatusBitsReadZero := by
  unfold Obligations.ReservedStatusBitsReadZero
  refine ⟨reservedField_statusRead, fun i s => ⟨_, exec_eq_withArch i s, ?_⟩⟩
  have hzero := reservedField_statusOfResult (resultOf s.params i)
  exact ⟨hzero, statusRead_of_reservedField _ hzero⟩

/-- Settles O20: a command that completes writes its result with VALID = 1 and ERR = 000, and one that raises an error
writes *none* with VALID = 0 and a nonzero code. -/
theorem validExactlyWhenOutHoldsTheResult : Obligations.ValidExactlyWhenOutHoldsTheResult := by
  unfold Obligations.ValidExactlyWhenOutHoldsTheResult
  refine ⟨fun i s => ⟨_, exec_eq_withArch i s, ?_, ?_⟩, by decide⟩
  · simp
  · simp [errField_statusOfResult_eq_zero_iff]

/-- `Issue` of a word that decodes runs its command between latching CMD and returning (10_state R25). -/
theorem issue_of_decode {w : Word} {x : Value} {i : Instr} (h : decode w x = .ok i) (s : State) :
    issue w x s = andThen (exec i (latchCommand w s)) returnToHost := by
  simp [issue, runCommand, h]

/-- Settles O11: the step is the pending `Issue`, which runs the decoded command. -/
theorem stepRunsTheDecodedCommand : Obligations.StepRunsTheDecodedCommand := by
  unfold Obligations.StepRunsTheDecodedCommand
  intro s w x rest i hinbox hdecode
  refine ⟨_, exec_eq_commit i _, ?_⟩
  rw [step_issue s w x rest hinbox, issue_of_decode hdecode, exec_eq_commit]
  rfl

/-- Settles O13: a command commits its result, and that writes STATUS and OUT. -/
theorem commandsWriteOnlyStatusAndOut : Obligations.CommandsWriteOnlyStatusAndOut := by
  unfold Obligations.CommandsWriteOnlyStatusAndOut
  exact fun i s => ⟨_, _, exec_eq_withArch i s⟩

/-! ## The host's interactions -/

theorem interact_read (p : Port) (s : State) : interact (.read p) s = .next (answerRead p s) := rfl

theorem interact_reset (s : State) : interact .reset s = .next (answerReset s) := rfl

@[simp] theorem readPort_answerRead (q p : Port) (s : State) : readPort q (answerRead p s) = readPort q s := by
  cases q <;> rfl

/-- Settles O16: a read only appends to the trace, and a status word with reserved bits zero is read unmasked. -/
theorem readsChangeNothing : Obligations.ReadsChangeNothing := by
  unfold Obligations.ReadsChangeNothing
  refine ⟨fun s p => ⟨_, interact_read p s, rfl, fun q => readPort_answerRead q p s⟩, fun s => ⟨rfl, rfl, ?_⟩⟩
  intro hzero
  exact congrArg ReadValue.word (statusRead_of_reservedField s hzero)

/-- Settles O17, by the kind of the interaction. -/
theorem onlyIssueAndResetWriteCmd : Obligations.OnlyIssueAndResetWriteCmd := by
  unfold Obligations.OnlyIssueAndResetWriteCmd
  intro s a
  cases a with
  | issue w x => exact ⟨_, issue_eq w x s, rfl, rfl⟩
  | read p => exact ⟨_, interact_read p s, answerRead_cmd p s⟩
  | reset => exact ⟨_, interact_reset s, answerReset_cmd s, answerReset_out s, by rw [answerReset_status]; decide⟩

end Sys2Proof.Machine

namespace Sys2Proof.Machine

/-! ## Issuing twice -/

/-- Settles O15: how a word ends depends on the parameters, the word and the operand alone, and an `Issue` keeps the
parameters. -/
theorem issuingTwiceIsIssuingOnce : Obligations.IssuingTwiceIsIssuingOnce := by
  unfold Obligations.IssuingTwiceIsIssuingOnce
  exact fun s w x => ⟨_, _, issue_eq w x s, issue_eq w x _, rfl⟩

/-! ## Work on blocks in any order (20_memory R47) -/

section Schedule

variable {α β : Type} (f : α → β) (blocks : List α) (order : List Nat)

theorem runSchedule_nil : runSchedule f blocks [] = List.replicate blocks.length none := rfl

/-- Working on a block last puts its result in its slot. -/
theorem runSchedule_concat_of_lt {n : Nat} (h : n < blocks.length) :
    runSchedule f blocks (order ++ [n]) = (runSchedule f blocks order).set n (some (f blocks[n])) := by
  simp [runSchedule, h]

/-- A number that names no block changes no slot. -/
theorem runSchedule_concat_of_le {n : Nat} (h : blocks.length ≤ n) :
    runSchedule f blocks (order ++ [n]) = runSchedule f blocks order := by
  simp [runSchedule, h]

/-- The slot of a block holds the block's result exactly when the order names the block. -/
theorem runSchedule_getElem? (m : Nat) :
    (runSchedule f blocks order)[m]? = blocks[m]?.map fun b => if m ∈ order then some (f b) else none := by
  induction order using List.reverseRecOn with
  | nil => by_cases hm : m < blocks.length <;> simp [runSchedule_nil, hm]
  | append_singleton order n ih =>
    by_cases hn : n < blocks.length
    · rw [runSchedule_concat_of_lt f blocks order hn]
      by_cases hmn : n = m
      · subst hmn
        simp [List.getElem?_set_self', ih, hn]
      · simp [List.getElem?_set_ne hmn, ih, Ne.symm hmn]
    · rw [runSchedule_concat_of_le f blocks order (by omega), ih]
      by_cases hm : m < blocks.length
      · have hmn : m ≠ n := by omega
        simp [hmn]
      · simp [hm]

/-- An order that covers the blocks gives the sequential results in block order. -/
theorem runSchedule_of_covers (h : ∀ m, m < blocks.length → m ∈ order) :
    runSchedule f blocks order = (blocks.map f).map some := by
  apply List.ext_getElem?
  intro m
  rw [runSchedule_getElem?]
  by_cases hm : m < blocks.length
  · simp [hm, h m hm]
  · simp [hm]

end Schedule

/-- Block m has its turn on lane m mod `lanes`. -/
theorem mem_laneOrder {lanes n m : Nat} (hl : 1 ≤ lanes) (hm : m < n) : m ∈ laneOrder lanes n := by
  have hlane : m % lanes < lanes := Nat.mod_lt m hl
  simp [laneOrder, hm, hlane]

/-- No command's end depends on LANES. -/
theorem resultOf_lanes (p : Params) (k : Nat) (i : Instr) : resultOf { p with lanes := k } i = resultOf p i := by
  cases i <;> rfl

/-- STATUS after a completion with CORR and SYN zero (10_state R26). -/
theorem statusOfResult_plain (v : Value) :
    statusOfResult (.ok { out := v, corr := false, syn := 0#5 }) = 0x00000008#32 :=
  completedStatus_plain

/-! ## DECS on scheduled results -/

theorem decodeData_eq_flatten (ws : List (List Bit)) :
    decodeData ws = ((ws.map decodeBlock).map Prod.fst).flatten := by
  simp [decodeData, concatBlocks, Function.comp_def]

/-- Every codeword carries 26 bits of data. -/
@[simp] theorem decodeData_length (ws : List (List Bit)) : (decodeData ws).length = 26 * ws.length := by
  simp [decodeData, concatBlocks, List.length_flatten, Function.comp_def, Nat.mul_comm]

/-- DECS's status says whether every decoded codeword had syndrome 0 (42_stream R123). -/
theorem completedStatus_anyCorrected (ws : List (List Bit)) :
    completedStatus (anyCorrected ws) 0#5 =
      if ∀ d ∈ ws.map decodeBlock, d.2 = 0#5 then 0x00000008#32 else 0x00000018#32 := by
  by_cases h : ∀ d ∈ ws.map decodeBlock, d.2 = 0#5
  · have hany : anyCorrected ws = false := by simpa [anyCorrected] using h
    rw [if_pos h, hany, completedStatus_plain]
  · have hany : anyCorrected ws = true := by simpa [anyCorrected] using h
    rw [if_neg h, hany, completedStatus_corrected]

/-- On well-formed words within the limit DECS and UNFRAME of the decoded data have one outcome, CORR apart: both run
the unframing step on the same bits. -/
theorem decs_and_unframe_of_decoded (ws : List (List Bit)) (s : State)
    (hlim : withinLimit s.params.maxDecodeBits (26 * ws.length)) (hw : ∀ w ∈ ws, w.length = 31) :
    (exec (.unframe (.bits (decodeData ws))) s = .next (withArch s 0x00000002#32 none) ∧
      exec (.decs (.words ws)) s = .next (withArch s 0x00000002#32 none)) ∨
    ∃ b : List Byte,
      exec (.unframe (.bits (decodeData ws))) s = .next (withArch s 0x00000008#32 (some (.bytes b))) ∧
      exec (.decs (.words ws)) s =
        .next (withArch s (completedStatus (anyCorrected ws) 0#5) (some (.bytes b))) := by
  have hlim' : withinLimit s.params.maxDecodeBits (decodeData ws).length := by rwa [decodeData_length]
  have hunframe := unframeResult_of_within s.params (decodeData ws) hlim'
  have hdecs := decsResult_of_within s.params ws hlim hw
  simp only [exec_eq_withArch, resultOf, hunframe, hdecs]
  obtain h | ⟨b, h, -⟩ := unframeBits_error_or_length_lt (decodeData ws)
  · rw [h]
    exact .inl ⟨rfl, rfl⟩
  · rw [h]
    refine .inr ⟨b, ?_, rfl⟩
    rw [Except.map, statusOfResult_plain, outOfResult]

/-! ## The lanes -/

/-- Settles O44: an order that covers the blocks fills every slot with its block's result, and no command's end depends
on LANES. -/
theorem lanesAreNotObservable : Obligations.LanesAreNotObservable := by
  unfold Obligations.LanesAreNotObservable
  refine ⟨fun b s order hb hcover => ⟨encodeStream b, ?_, runSchedule_of_covers _ _ _ hcover⟩,
    fun ws s order hcover => ⟨_, rfl, runSchedule_of_covers _ _ _ hcover, ?_⟩,
    fun lanes n m => mem_laneOrder,
    fun i s k => ⟨_, _, exec_eq_withArch i s, ?_⟩⟩
  · rw [exec_eq_withArch, resultOf, encsResult_of_le _ b hb, statusOfResult_plain, outOfResult]
  · rw [← decodeData_eq_flatten, ← completedStatus_anyCorrected]
    exact decs_and_unframe_of_decoded ws s
  · rw [exec_eq_withArch, resultOf_lanes]

end Sys2Proof.Machine

namespace Sys2Proof.Machine

/-! ## The opcode table and its words (30_encoding R60, R61, R63) -/

/-- The model's law of each command's encoding, for all commands at once (30_encoding R62, R66). -/
theorem encodingIsPlain (i : Instr) : Laws.EncodingIsPlain.Statement i := by
  cases i with
  | encb x => exact Laws.EncodingIsPlain.encb x
  | decb x => exact Laws.EncodingIsPlain.decb x
  | frame x => exact Laws.EncodingIsPlain.frame x
  | unframe x => exact Laws.EncodingIsPlain.unframe x
  | encs x => exact Laws.EncodingIsPlain.encs x
  | decs x => exact Laws.EncodingIsPlain.decs x
  | reserved6 x => exact Laws.EncodingIsPlain.reserved6 x
  | reserved7 x => exact Laws.EncodingIsPlain.reserved7 x

/-- The OP of a command's word names the command's row. -/
theorem decodeOp_encode (i : Instr) : decodeOp (opField (encode i).1) (encode i).2 = i := by
  cases i <;> rfl

theorem decode_encode (i : Instr) : decode (encode i).1 (encode i).2 = .ok i := by
  obtain ⟨hlt, -, -⟩ := encodingIsPlain i
  rw [decode_ok_of_lt _ _ hlt, decodeOp_encode]

/-- Settles O2: the word of every row decodes to that row, and the eight words below 8, which are all that decode, are
the rows' words. -/
theorem decodeAndEncodeAgree : Obligations.DecodeAndEncodeAgree := by
  unfold Obligations.DecodeAndEncodeAgree
  exact ⟨decode_encode, fun _ _ _ h => encode_of_decode h⟩

/-- Settles O1: the words of the table are the words the rows encode to. -/
theorem tableWordsDecodeToTheirCommands : Obligations.TableWordsDecodeToTheirCommands := by
  unfold Obligations.TableWordsDecodeToTheirCommands
  exact fun x => ⟨decode_encode (.encb x), decode_encode (.decb x), decode_encode (.frame x),
    decode_encode (.unframe x), decode_encode (.encs x), decode_encode (.decs x),
    decode_encode (.reserved6 x), decode_encode (.reserved7 x)⟩

/-! ## Illegal commands (30_encoding R62, R64, R67) -/

/-- STATUS after ILLEGAL_COMMAND (60_exceptions R140, R145). -/
theorem errorStatus_illegalCommand : errorStatus .illegalCommand = 0x00000004#32 := by decide

theorem exec_of_illegalCommand {i : Instr} {s : State} (h : resultOf s.params i = .error .illegalCommand) :
    exec i s = .next (withArch s 0x00000004#32 none) := by
  rw [exec_eq_withArch, h, statusOfResult, errorStatus_illegalCommand, outOfResult]

/-- An operand of another kind than the command requires is refused before anything else (30_encoding R64). -/
theorem resultOf_of_kind_ne {i : Instr} {k : Kind} (p : Params) (hk : i.operandKind = some k)
    (hne : i.operand.kind ≠ k) : resultOf p i = .error .illegalCommand := by
  cases i with
  | encb x => cases hk; exact encbResult_of_kind x hne
  | decb x => cases hk; exact decbResult_of_kind x hne
  | frame x => cases hk; exact frameResult_of_kind p x hne
  | unframe x => cases hk; exact unframeResult_of_kind p x hne
  | encs x => cases hk; exact encsResult_of_kind p x hne
  | decs x => cases hk; exact decsResult_of_kind p x hne
  | reserved6 x => cases hk
  | reserved7 x => cases hk

/-- Settles O4: a command that meets an operand of the wrong kind ends in ILLEGAL_COMMAND. -/
theorem wrongOperandKindRaisesIllegalCommand : Obligations.WrongOperandKindRaisesIllegalCommand := by
  unfold Obligations.WrongOperandKindRaisesIllegalCommand
  exact fun i k s hk hne => exec_of_illegalCommand (resultOf_of_kind_ne s.params hk hne)

/-- Settles O5: both reserved rows end in ILLEGAL_COMMAND. -/
theorem reservedOpsRaiseIllegalCommand : Obligations.ReservedOpsRaiseIllegalCommand := by
  unfold Obligations.ReservedOpsRaiseIllegalCommand
  exact fun x s => ⟨exec_of_illegalCommand rfl, exec_of_illegalCommand rfl⟩

/-- A word with a reserved bit set is at least 8, and no such word decodes (30_encoding R62). -/
theorem resultOfIssue_of_rsvField_ne_zero (p : Params) {w : Word} (x : Value) (h : rsvField w ≠ 0) :
    resultOfIssue p w x = .error .illegalCommand := by
  have hge : 8 ≤ w.toNat := Nat.not_lt.1 (mt (rsvField_eq_zero_iff w).2 h)
  rw [resultOfIssue, decode_error_of_le w x hge]

/-- A reserved OP is illegal, whether RSV is zero (30_encoding R67) or not (R62). -/
theorem resultOfIssue_of_reservedOp (p : Params) {w : Word} (x : Value)
    (h : opField w = 0b110#3 ∨ opField w = 0b111#3) : resultOfIssue p w x = .error .illegalCommand := by
  by_cases hrsv : rsvField w = 0
  · rw [resultOfIssue, decode_ok_of_lt w x ((rsvField_eq_zero_iff w).1 hrsv)]
    obtain hop | hop := h <;> rw [hop] <;> rfl
  · exact resultOfIssue_of_rsvField_ne_zero p x hrsv

/-- An `Issue` that ends in ILLEGAL_COMMAND leaves its word, the code and no result (60_exceptions R145). -/
theorem issue_of_illegalCommand {s : State} {w : Word} {x : Value}
    (h : resultOfIssue s.params w x = .error .illegalCommand) :
    ∃ t, issue w x s = .next t ∧ archState t = (w, 0x00000004#32, none) := by
  refine ⟨_, issue_eq w x s, ?_⟩
  simp only [archState, h, statusOfResult, errorStatus_illegalCommand, outOfResult]

/-- Settles O3: a word with a reserved bit set decodes to no command, and the reserved OPs decode to the table's
reserved rows. -/
theorem everyOtherWordRaisesIllegalCommand : Obligations.EveryOtherWordRaisesIllegalCommand := by
  unfold Obligations.EveryOtherWordRaisesIllegalCommand
  rintro s w x (hrsv | hop)
  · exact issue_of_illegalCommand (resultOfIssue_of_rsvField_ne_zero s.params x hrsv)
  · exact issue_of_illegalCommand (resultOfIssue_of_reservedOp s.params x hop)

/-! ## The assembler's operands (30_encoding R70) -/

/-- The packed view of the sequence a value below 2^n is written as is that value (00_scope R16). -/
theorem intFromBits_bitsFromInt_of_lt {v n : Nat} (h : v < 2 ^ n) : intFromBits (bitsFromInt v n) = v := by
  rw [intFromBits_bitsFromInt, Nat.mod_eq_of_lt h]

theorem assemble_encb_hex7 (v : Nat) :
    assemble (.encb (.hex7 v)) =
      if v < 2 ^ 26 then some (.issue 0x00000000#32 (.bits (bitsFromInt v 26))) else none := by
  simp only [assemble, dataOfForm, bitsOfForm]
  split <;> rfl

theorem assemble_decb_hex8 (v : Nat) :
    assemble (.decb (.hex8 v)) =
      if v < 2 ^ 31 then some (.issue 0x00000001#32 (.bits (bitsFromInt v 31))) else none := by
  simp only [assemble, wordOfForm, bitsOfForm]
  split <;> rfl

/-- Settles O6: a hexadecimal form writes `bitsFromInt` of its value when the value is in range, and a `0b` form writes
its digits. -/
theorem assemblerFormsWriteTheirOperands : Obligations.AssemblerFormsWriteTheirOperands := by
  unfold Obligations.AssemblerFormsWriteTheirOperands
  refine ⟨fun v hv => ⟨bitsFromInt v 26, ?_, bitsFromInt_length v 26, intFromBits_bitsFromInt_of_lt hv⟩,
    fun v hv => ⟨bitsFromInt v 31, ?_, bitsFromInt_length v 31, intFromBits_bitsFromInt_of_lt hv⟩,
    fun v hv => ?_, fun v hv => ?_, fun u => ⟨rfl, rfl, rfl⟩⟩
  · rw [assemble_encb_hex7, if_pos hv]
  · rw [assemble_decb_hex8, if_pos hv]
  · rw [assemble_encb_hex7, if_neg (Nat.not_lt.2 hv)]
  · rw [assemble_decb_hex8, if_neg (Nat.not_lt.2 hv)]

end Sys2Proof.Machine

namespace Sys2Proof.Machine

/-! ## XOR over lists of bits, and bitwise XOR of sequences (00_scope R17) -/

section Xor

variable {α : Type}

theorem xorAll_map_xor (f g : α → Bit) (l : List α) :
    xorAll (l.map fun i => f i ^^ g i) = (xorAll (l.map f) ^^ xorAll (l.map g)) := by
  induction l with
  | nil => rfl
  | cons i l ih => simp [xorAll, ih, Bool.xor_left_comm]

/-- A masked XOR runs over the indices in the mask. -/
theorem xorAll_map_and (f g : α → Bit) (l : List α) :
    xorAll (l.map fun i => f i && g i) = xorAll ((l.filter g).map f) := by
  induction l with
  | nil => rfl
  | cons i l ih => cases hg : g i <;> simp [xorAll, ih, hg]

/-- A list without repetitions holds an element an odd number of times exactly when it holds it. -/
theorem xorAll_map_decide_eq [DecidableEq α] {l : List α} (hl : l.Nodup) (a : α) :
    xorAll (l.map fun b => decide (a = b)) = decide (a ∈ l) := by
  induction l with
  | nil => simp [xorAll]
  | cons b l ih =>
    obtain ⟨hb, hl'⟩ := List.nodup_cons.1 hl
    by_cases hab : a = b
    · subst hab
      simp [xorAll, ih hl', hb]
    · simp [xorAll, ih hl', hab]

end Xor

theorem xorBits_length {a b : List Bit} (h : a.length = b.length) : (xorBits a b).length = a.length := by
  simp [xorBits, h]

theorem xorBits_getD {a b : List Bit} (h : a.length = b.length) (k : Nat) :
    (xorBits a b).getD k false = (a.getD k false ^^ b.getD k false) := by
  by_cases hk : k < a.length
  · have hk' : k < b.length := h ▸ hk
    simp [xorBits, hk, hk']
  · have hk' : ¬ k < b.length := h ▸ hk
    simp [xorBits, hk, hk']

theorem bitAt_xorBits {a b : List Bit} (h : a.length = b.length) (p : Nat) :
    bitAt (xorBits a b) p = (bitAt a p ^^ bitAt b p) :=
  xorBits_getD h (p - 1)

/-! ## The syndrome as the XOR of positions (40_codec R87 to R89) -/

/-- Position i is covered by parity position 2^k when bit k of i is set (40_codec R83). -/
theorem covers_two_pow (k i : Nat) : covers (2 ^ k) i = i.testBit k := by
  rw [covers, Nat.and_two_pow]
  cases i.testBit k <;> simp

theorem getLsbD_foldr_xor (l : List Syndrome) (k : Nat) :
    (l.foldr (fun a b => a ^^^ b) 0#5).getLsbD k = xorAll (l.map fun a => a.getLsbD k) := by
  induction l with
  | nil => exact BitVec.getLsbD_zero
  | cons a l ih => rw [List.foldr_cons, BitVec.getLsbD_xor, ih, List.map_cons, xorAll]

/-- The closed form of R89: bit k of the XOR of the positions of the 1 bits runs over the 1 bits at positions whose
bit k is set, and so does the check of position 2^k. -/
theorem syndrome_eq_xorOfPositions (w : List Bit) : syndrome w = xorOfPositions w := by
  apply BitVec.eq_of_getLsbD_eq
  intro k hk
  have hbit : ∀ i, (BitVec.ofNat 5 i).getLsbD k = covers (2 ^ k) i := by
    intro i
    rw [covers_two_pow, BitVec.getLsbD_ofNat, decide_eq_true hk, Bool.true_and]
  rw [syndrome_getLsbD w k hk, checkSum, xorOfPositions, getLsbD_foldr_xor, List.map_map, ← xorAll_map_and,
    Function.comp_def]
  simp only [hbit, ← xorAll_map_and, Bool.and_comm]

theorem checkSum_xorBits {a b : List Bit} (h : a.length = b.length) (p : Nat) :
    checkSum (xorBits a b) p = (checkSum a p ^^ checkSum b p) := by
  rw [checkSum, checkSum, checkSum, ← xorAll_map_xor]
  exact xorAll_map_congr fun i _ => bitAt_xorBits h i

theorem syndrome_xorBits {a b : List Bit} (h : a.length = b.length) :
    syndrome (xorBits a b) = syndrome a ^^^ syndrome b := by
  apply BitVec.eq_of_getLsbD_eq
  intro k hk
  rw [BitVec.getLsbD_xor, syndrome_getLsbD _ k hk, syndrome_getLsbD _ k hk, syndrome_getLsbD _ k hk,
    checkSum_xorBits h]

theorem mem_positions {p : Nat} : p ∈ positions ↔ 1 ≤ p ∧ p ≤ 31 := by
  rw [positions, List.mem_range'_1]
  omega

theorem checkSum_flipAt {w : List Bit} (hw : w.length = 31) {i : Nat} (hi : 1 ≤ i) (hi' : i ≤ 31) (p : Nat) :
    checkSum (flipAt w i) p = (checkSum w p ^^ covers p i) := by
  have hnodup : (positions.filter (covers p)).Nodup := List.Nodup.filter _ (by decide)
  have hmem : i ∈ positions.filter (covers p) ↔ covers p i = true := by
    simp [mem_positions, hi, hi']
  calc checkSum (flipAt w i) p
      = xorAll ((positions.filter (covers p)).map fun q => bitAt w q ^^ decide (i = q)) := by
        refine xorAll_map_congr fun q hq => bitAt_flipAt w i q hi ?_ (hw ▸ hi')
        exact (mem_positions.1 (List.mem_filter.1 hq).1).1
    _ = (checkSum w p ^^ covers p i) := by
        rw [xorAll_map_xor, xorAll_map_decide_eq hnodup, checkSum]
        simp only [hmem, Bool.decide_eq_true]

/-- A flip moves the syndrome by its position (40_codec R89). -/
theorem syndrome_flipAt {w : List Bit} (hw : w.length = 31) {i : Nat} (hi : 1 ≤ i) (hi' : i ≤ 31) :
    syndrome (flipAt w i) = syndrome w ^^^ BitVec.ofNat 5 i := by
  apply BitVec.eq_of_getLsbD_eq
  intro k hk
  rw [BitVec.getLsbD_xor, syndrome_getLsbD _ k hk, syndrome_getLsbD _ k hk, checkSum_flipAt hw hi hi',
    covers_two_pow, BitVec.getLsbD_ofNat]
  simp [hk]

/-! ## The data of a word (40_codec R81, R82) -/

theorem extractData_getD (w : List Bit) {j : Nat} (hj : j < 26) :
    (extractData w).getD j false = bitAt w (dataPos.getD j 0) := by
  have hj' : j < dataPos.length := hj
  simp [extractData, hj']

/-- Two words carry the same data exactly when they agree at the data positions. -/
theorem extractData_eq_iff {u v : List Bit} :
    extractData u = extractData v ↔ ∀ q ∈ dataPos, bitAt u q = bitAt v q :=
  List.map_inj_left

/-- Two sequences of one length that agree at every index are one. -/
theorem eq_of_getD {u v : List Bit} (hl : u.length = v.length) (h : ∀ k < v.length, u.getD k false = v.getD k false) :
    u = v := by
  apply List.ext_getElem hl
  intro k hk hk'
  rw [← List.getD_eq_getElem u false hk, ← List.getD_eq_getElem v false hk', h k hk']

theorem extractData_encodeBlock {d : List Bit} (hd : d.length = 26) : extractData (encodeBlock d) = d := by
  apply eq_of_getD (by simp [hd])
  intro j hj
  have hj26 : j < 26 := hd ▸ hj
  rw [extractData_getD _ hj26, bitAt_encodeBlock_data d hd j hj26]

theorem extractData_xorBits {u v : List Bit} (h : u.length = v.length) :
    extractData (xorBits u v) = xorBits (extractData u) (extractData v) := by
  simp [extractData, xorBits, List.zipWith_map, List.zipWith_self, ← bitAt_xorBits h]

theorem mem_parityPos_or_mem_dataPos {q : Nat} (hq : q ∈ positions) : q ∈ parityPos ∨ q ∈ dataPos := by
  revert q
  decide

/-- The codewords are the 31-bit words of syndrome 0: such a word is the encoding of its own data (40_codec R86). -/
theorem encodeBlock_extractData {w : List Bit} (hw : w.length = 31) (hsyn : syndrome w = 0#5) :
    encodeBlock (extractData w) = w := by
  have hdata : ∀ q ∈ dataPos, bitAt (encodeBlock (extractData w)) q = bitAt w q :=
    extractData_eq_iff.1 (extractData_encodeBlock (extractData_length w))
  have hpow : ∀ p ∈ parityPos, ∃ k < 5, p = 2 ^ k := by decide
  have hparity : ∀ p ∈ parityPos, bitAt w p = paritySum w p := by
    intro p hp
    obtain ⟨k, hk, rfl⟩ := hpow p hp
    have hcheck : checkSum w (2 ^ k) = false := by rw [← syndrome_getLsbD w k hk, hsyn, BitVec.getLsbD_zero]
    rw [checkSum_eq w _ hp] at hcheck
    simpa using hcheck
  apply eq_of_bitAt _ _ (by simp [hw])
  intro q hq hq'
  rw [encodeBlock_length] at hq'
  obtain hp | hd := mem_parityPos_or_mem_dataPos (mem_positions.2 ⟨hq, hq'⟩)
  · rw [bitAt_encodeBlock_parity _ q hp, hparity q hp]
    exact paritySum_congr _ _ q hp hdata
  · exact hdata q hd

/-! ## How ENCB and DECB end (40_codec R85, R91) -/

/-- STATUS after MALFORMED_WORD (60_exceptions R140, R145). -/
theorem errorStatus_malformedWord : errorStatus .malformedWord = 0x00000001#32 := by decide

theorem exec_of_malformedWord {i : Instr} {s : State} (h : resultOf s.params i = .error .malformedWord) :
    exec i s = .next (withArch s 0x00000001#32 none) := by
  rw [exec_eq_withArch, h, statusOfResult, errorStatus_malformedWord, outOfResult]

theorem exec_encb_of_length {d : List Bit} (hd : d.length = 26) (s : State) :
    exec (.encb (.bits d)) s = .next (withArch s 0x00000008#32 (some (.bits (encodeBlock d)))) := by
  rw [exec_eq_withArch, resultOf, encbResult_of_length d hd, statusOfResult_plain, outOfResult]

theorem exec_decb_of_length {w : List Bit} (hw : w.length = 31) (s : State) :
    exec (.decb (.bits w)) s =
      .next (withArch s (completedStatus (syndrome w != 0#5) (syndrome w))
        (some (.bits (extractData (correct w (syndrome w)))))) := by
  rw [exec_eq_withArch, resultOf, decbResult_of_length w hw]
  rfl

/-- With syndrome 0 DECB takes the word as received (40_codec R90). -/
theorem exec_decb_of_syndrome_eq_zero {w : List Bit} (hw : w.length = 31) (hsyn : syndrome w = 0#5) (s : State) :
    exec (.decb (.bits w)) s = .next (withArch s 0x00000008#32 (some (.bits (extractData w)))) := by
  rw [exec_decb_of_length hw, hsyn, correct, if_pos rfl, bne_self_eq_false, completedStatus_plain]

/-- With any other syndrome DECB flips the position it names (40_codec R90). -/
theorem exec_decb_of_syndrome_ne_zero {w : List Bit} (hw : w.length = 31) (hsyn : syndrome w ≠ 0#5) (s : State) :
    exec (.decb (.bits w)) s =
      .next (withArch s (BitVec.ofNat 32 (0x18 + (syndrome w).toNat * 2 ^ 5))
        (some (.bits (extractData (flipAt w (syndrome w).toNat))))) := by
  rw [exec_decb_of_length hw, completedStatus_syndrome, correct, if_neg hsyn, if_neg hsyn]

/-- The same, for the position the syndrome is known to name. -/
theorem exec_decb_of_syndrome_eq {w : List Bit} (hw : w.length = 31) {i : Nat} (hi : 1 ≤ i) (hi' : i ≤ 31)
    (hsyn : syndrome w = BitVec.ofNat 5 i) (s : State) :
    exec (.decb (.bits w)) s =
      .next (withArch s (BitVec.ofNat 32 (0x18 + i * 2 ^ 5)) (some (.bits (extractData (flipAt w i))))) := by
  have htoNat : (syndrome w).toNat = i := by
    rw [hsyn, BitVec.toNat_ofNat, Nat.mod_eq_of_lt (by omega)]
  have hne : syndrome w ≠ 0#5 := by
    intro h
    rw [h, BitVec.toNat_zero] at htoNat
    omega
  rw [exec_decb_of_syndrome_ne_zero hw hne, htoNat]

/-! ## DECB inverts ENCB and corrects one error (40_codec R92, R98) -/

theorem flipAt_flipAt {w : List Bit} {i : Nat} (hi : 1 ≤ i) (hi' : i ≤ w.length) : flipAt (flipAt w i) i = w := by
  apply eq_of_bitAt _ _ (by simp)
  intro q hq _
  rw [bitAt_flipAt _ i q hi hq (by simpa using hi'), bitAt_flipAt w i q hi hq hi', Bool.xor_assoc, Bool.xor_self,
    Bool.xor_false]

theorem exec_decb_encodeBlock {d : List Bit} (hd : d.length = 26) (s : State) :
    exec (.decb (.bits (encodeBlock d))) s = .next (withArch s 0x00000008#32 (some (.bits d))) := by
  rw [exec_decb_of_syndrome_eq_zero (encodeBlock_length d) (syndrome_encodeBlock d), extractData_encodeBlock hd]

/-- With one position flipped the syndrome is that position, so DECB flips it back. -/
theorem exec_decb_flipAt_encodeBlock {d : List Bit} (hd : d.length = 26) {i : Nat} (hi : 1 ≤ i) (hi' : i ≤ 31)
    (s : State) :
    exec (.decb (.bits (flipAt (encodeBlock d) i))) s =
      .next (withArch s (BitVec.ofNat 32 (0x18 + i * 2 ^ 5)) (some (.bits d))) := by
  have hsyn : syndrome (flipAt (encodeBlock d) i) = BitVec.ofNat 5 i := by
    rw [syndrome_flipAt (encodeBlock_length d) hi hi', syndrome_encodeBlock, BitVec.zero_xor]
  rw [exec_decb_of_syndrome_eq (by simp) hi hi' hsyn, flipAt_flipAt hi (by simpa using hi'),
    extractData_encodeBlock hd]

/-- Settles O32: a codeword has syndrome 0, and a flipped position moves the syndrome to itself. -/
theorem everySingleErrorIsCorrected : Obligations.EverySingleErrorIsCorrected := by
  unfold Obligations.EverySingleErrorIsCorrected
  intro d s hd
  exact ⟨encodeBlock d, exec_encb_of_length hd s, extractData_encodeBlock hd, exec_decb_encodeBlock hd s,
    fun _ hi hi' => exec_decb_flipAt_encodeBlock hd hi hi' s⟩

/-! ## ENCB and DECB on every operand (40_codec R85, R88, R90, R91) -/

theorem ascendingDataPositions_eq : ascendingDataPositions = dataPos := by decide

theorem encodeBlock_zeros : encodeBlock (List.replicate 26 false) = List.replicate 31 false := by decide

theorem encodeBlock_ones : encodeBlock (List.replicate 26 true) = List.replicate 31 true := by decide

/-- The codeword of R85's example. -/
theorem encodeBlock_example : encodeBlock (bitsFromInt 0x0000001 26) = bitsFromInt 0x68808001 31 := by decide

/-- The received word of R91's example. -/
theorem flipAt_example : flipAt (bitsFromInt 0x68808001 31) 5 = bitsFromInt 0x6C808001 31 := by decide

/-- Settles O25: data bits stand where they were placed, and each parity position has its parity sum. -/
theorem encbEncodesOneBlock : Obligations.EncbEncodesOneBlock := by
  unfold Obligations.EncbEncodesOneBlock
  refine ⟨fun d s hd => ⟨encodeBlock d, exec_encb_of_length hd s, encodeBlock_length d, fun j hj => ?_,
      bitAt_encodeBlock_parity d⟩,
    fun d s hd => exec_of_malformedWord (encbResult_of_length_ne d hd),
    fun x s hx => exec_of_illegalCommand (encbResult_of_kind x hx), fun s => ⟨?_, ?_, ?_⟩⟩
  · rw [ascendingDataPositions_eq, bitAt_encodeBlock_data d hd j hj]
  · rw [exec_encb_of_length (by simp), encodeBlock_zeros]
  · rw [exec_encb_of_length (by simp), encodeBlock_ones]
  · rw [exec_encb_of_length (by simp), encodeBlock_example]

theorem dataPos_getD_mem {j : Nat} (hj : j < 26) : dataPos.getD j 0 ∈ dataPos := by
  have hj' : j < dataPos.length := hj
  rw [List.getD_eq_getElem _ 0 hj']
  exact List.getElem_mem hj'

/-- The corrector inverts the position the syndrome names; there is no position 0 (40_codec R90). -/
theorem bitAt_correct {w : List Bit} (hw : w.length = 31) (syn : Syndrome) {q : Nat} (hq : 1 ≤ q) :
    bitAt (correct w syn) q = (bitAt w q ^^ decide (q = syn.toNat)) := by
  by_cases hsyn : syn = 0#5
  · have hne : q ≠ (0#5).toNat := Nat.ne_of_gt hq
    rw [correct, if_pos hsyn, hsyn, decide_eq_false hne, Bool.xor_false]
  · have hpos : 1 ≤ syn.toNat := Nat.pos_of_ne_zero fun h => hsyn (BitVec.eq_of_toNat_eq h)
    have hlt : syn.toNat < 32 := syn.isLt
    rw [correct, if_neg hsyn, bitAt_flipAt w _ q hpos hq (by omega)]
    simp only [eq_comm]

/-- A flipped parity position leaves the data as received (40_codec R91). -/
theorem extractData_flipAt_parity {w : List Bit} (hw : w.length = 31) {p : Nat} (hp : p ∈ parityPos) :
    extractData (flipAt w p) = extractData w :=
  extractData_eq_iff.2 (bitAt_dataPos_setAt_parity w p _ hw hp)

theorem exec_decb_of_parity_syndrome {w : List Bit} (hw : w.length = 31) (hp : (syndrome w).toNat ∈ parityPos)
    (s : State) :
    exec (.decb (.bits w)) s = .next (withArch s
      (BitVec.ofNat 32 (0x18 + (syndrome w).toNat * 2 ^ 5)) (some (.bits (extractData w)))) := by
  have hne : syndrome w ≠ 0#5 := by
    intro h
    rw [h] at hp
    exact absurd hp (by decide)
  rw [exec_decb_of_syndrome_ne_zero hw hne, extractData_flipAt_parity hw hp]

/-- Bit k of the syndrome, with the rule's coverage written out (40_codec R87, R88). -/
theorem syndrome_getLsbD_eq_xorAll (w : List Bit) (k : Nat) (hk : k < 5) :
    (syndrome w).getLsbD k = xorAll (((List.range' 1 31).filter fun i => (i &&& 2 ^ k) != 0).map (bitAt w)) :=
  syndrome_getLsbD w k hk

/-- Settles O29: the syndrome, the corrector and the extraction position by position. R91's words are codewords, one of
them with position 5 flipped. -/
theorem decbDecodesOneWord : Obligations.DecbDecodesOneWord := by
  unfold Obligations.DecbDecodesOneWord
  refine ⟨fun w s hw => ⟨extractData (correct w (syndrome w)), syndrome w, ?_, syndrome_getLsbD_eq_xorAll w,
      extractData_length _, fun j hj => ?_⟩,
    fun w s hw hp => exec_decb_of_parity_syndrome hw hp s,
    fun w s hw => exec_of_malformedWord (decbResult_of_length_ne w hw),
    fun x s hx => exec_of_illegalCommand (decbResult_of_kind x hx), fun s => ⟨?_, ?_, ?_⟩⟩
  · rw [exec_decb_of_length hw, completedStatus_syndrome]
  · rw [ascendingDataPositions_eq, extractData_getD _ hj,
      bitAt_correct hw _ (dataPos_range _ (dataPos_getD_mem hj)).1]
  · rw [← encodeBlock_zeros, exec_decb_encodeBlock (by simp)]
  · rw [← encodeBlock_ones, exec_decb_encodeBlock (by simp)]
  · rw [← flipAt_example, ← encodeBlock_example,
      exec_decb_flipAt_encodeBlock (by simp) (by decide) (by decide)]
    rfl

/-! ## Codewords (40_codec R86) -/

/-- Settles O27: a parity position holds its parity sum, so its check cancels. -/
theorem codewordsHaveZeroSyndrome : Obligations.CodewordsHaveZeroSyndrome := by
  unfold Obligations.CodewordsHaveZeroSyndrome
  exact fun d s hd => ⟨encodeBlock d, exec_encb_of_length hd s,
    fun p hp => ⟨bitAt_encodeBlock_parity d p hp, checkSum_encodeBlock d p hp⟩, syndrome_encodeBlock d⟩

/-! ## Parities of packed views under masks (40_codec R84, R87) -/

/-- Index j of a sequence is bit `length - 1 - j` of its packed view (00_scope R14, R16). -/
theorem testBit_intFromBits {s : List Bit} {j : Nat} (hj : j < s.length) :
    (intFromBits s).testBit (s.length - 1 - j) = s.getD j false := by
  induction s generalizing j with
  | nil => simp at hj
  | cons b s ih =>
    have hlt := intFromBits_lt s
    rw [intFromBits, Nat.mul_comm, Nat.testBit_two_pow_mul_add _ hlt]
    cases j with
    | zero => cases b <;> simp
    | succ j =>
      have hj' : j < s.length := by simpa using hj
      have hbit : (b :: s).length - 1 - (j + 1) = s.length - 1 - j := by simp; omega
      rw [hbit, if_pos (by omega), ih hj', List.getD_cons_succ]

/-- The parity of a packed view under a mask is the XOR over the indices whose bits the mask holds. -/
theorem parity_intFromBits_and {s : List Bit} {width mask : Nat} {js : List Nat} (hjs : ∀ j ∈ js, j < s.length)
    (hmask : ((List.range width).filter mask.testBit).Perm (js.map fun j => s.length - 1 - j)) :
    parity width (intFromBits s &&& mask) = xorAll (js.map (s.getD · false)) := by
  simp only [parity, Nat.testBit_and]
  rw [xorAll_map_and, xorAll_perm (hmask.map _), List.map_map]
  exact xorAll_map_congr fun j hj => testBit_intFromBits (hjs j hj)

/-- A parity bit of a codeword over the data bits its parity position covers (40_codec R83, R84). -/
theorem bitAt_encodeBlock_parity_eq_xorAll {d : List Bit} (hd : d.length = 26) {p : Nat} (hp : p ∈ parityPos)
    {js : List Nat} (hjs : ∀ j ∈ js, j < 26)
    (hcov : positions.filter (fun i => i != p && covers p i) = js.map (dataPos.getD · 0)) :
    bitAt (encodeBlock d) p = xorAll (js.map (d.getD · false)) := by
  rw [bitAt_encodeBlock_parity d p hp, paritySum, hcov, List.map_map]
  exact xorAll_map_congr fun j hj => bitAt_encodeBlock_data d hd j (hjs j hj)

/-- The three forms of a parity bit (40_codec R84), for the data bits `js` that its position covers and its mask. -/
theorem bitAt_encodeBlock_parity_forms {d : List Bit} (hd : d.length = 26) (p : Nat) (js : List Nat) (mask : Nat)
    (hp : p ∈ parityPos) (hjs : ∀ j ∈ js, j < 26)
    (hcov : positions.filter (fun i => i != p && covers p i) = js.map (dataPos.getD · 0))
    (hmask : ((List.range 26).filter mask.testBit).Perm (js.map fun j => 26 - 1 - j)) :
    bitAt (encodeBlock d) p = paritySum (encodeBlock d) p ∧
      bitAt (encodeBlock d) p = xorAll (js.map (d.getD · false)) ∧
      bitAt (encodeBlock d) p = parity 26 (intFromBits d &&& mask) := by
  have hxor := bitAt_encodeBlock_parity_eq_xorAll hd hp hjs hcov
  refine ⟨bitAt_encodeBlock_parity d p hp, hxor, ?_⟩
  rw [parity_intFromBits_and (by rwa [hd]) (by rwa [hd]), hxor]

/-- Settles O26: the written-out index lists and the masks are those of the coverage sets. -/
theorem parityBitsAreTheMaskedParities : Obligations.ParityBitsAreTheMaskedParities := by
  unfold Obligations.ParityBitsAreTheMaskedParities
  intro d s hd
  refine ⟨encodeBlock d, exec_encb_of_length hd s, ?_, ?_, ?_, ?_, ?_⟩
  · exact bitAt_encodeBlock_parity_forms hd 1 _ _ (by decide) (by decide) (by decide) (by decide)
  · exact bitAt_encodeBlock_parity_forms hd 2 _ _ (by decide) (by decide) (by decide) (by decide)
  · exact bitAt_encodeBlock_parity_forms hd 4 _ _ (by decide) (by decide) (by decide) (by decide)
  · exact bitAt_encodeBlock_parity_forms hd 8 _ _ (by decide) (by decide) (by decide) (by decide)
  · exact bitAt_encodeBlock_parity_forms hd 16 _ _ (by decide) (by decide) (by decide) (by decide)

/-- A check under its mask (40_codec R87): the mask holds the packed-view bits of the positions it covers. -/
theorem checkSum_eq_parity {w : List Bit} (hw : w.length = 31) (p mask : Nat)
    (hmask : ((List.range 32).filter mask.testBit).Perm
      ((positions.filter (covers p)).map fun i => 31 - 1 - (i - 1))) :
    checkSum w p = parity 32 (intFromBits w &&& mask) := by
  have hlt : ∀ j ∈ (positions.filter (covers p)).map (· - 1), j < w.length := by
    intro j hj
    obtain ⟨i, hi, rfl⟩ := List.mem_map.1 hj
    have hrange := mem_positions.1 (List.mem_filter.1 hi).1
    omega
  rw [parity_intFromBits_and hlt (by rwa [hw, List.map_map]), List.map_map]
  rfl

/-- SYN after DECB (40_codec R91). -/
theorem exec_decb_synField {w : List Bit} (hw : w.length = 31) (s : State) :
    ∃ t, exec (.decb (.bits w)) s = .next t ∧ synField t.status = syndrome w :=
  ⟨_, exec_decb_of_length hw s, synField_statusWord ..⟩

/-- Settles O30: bit k of SYN is the check of position 2^k, and each mask holds the bits of the positions it covers. -/
theorem syndromeBitsAreTheMaskedParities : Obligations.SyndromeBitsAreTheMaskedParities := by
  unfold Obligations.SyndromeBitsAreTheMaskedParities
  refine ⟨fun w s hw => ?_, by decide⟩
  obtain ⟨t, ht, hsyn⟩ := exec_decb_synField hw s
  have hbit : ∀ k < 5, (synField t.status).getLsbD k = checkSum w (2 ^ k) := by
    intro k hk
    rw [hsyn, syndrome_getLsbD w k hk]
  refine ⟨t, ht, hbit, ?_, ?_, ?_, ?_, ?_⟩
  · exact (hbit 0 (by decide)).trans (checkSum_eq_parity hw _ _ (by decide))
  · exact (hbit 1 (by decide)).trans (checkSum_eq_parity hw _ _ (by decide))
  · exact (hbit 2 (by decide)).trans (checkSum_eq_parity hw _ _ (by decide))
  · exact (hbit 3 (by decide)).trans (checkSum_eq_parity hw _ _ (by decide))
  · exact (hbit 4 (by decide)).trans (checkSum_eq_parity hw _ _ (by decide))

/-! ## Error patterns on a codeword (40_codec R89, R93, R94) -/

/-- The syndrome of a codeword with an error pattern is the pattern's. -/
theorem syndrome_xorBits_encodeBlock (d : List Bit) {e : List Bit} (he : e.length = 31) :
    syndrome (xorBits (encodeBlock d) e) = syndrome e := by
  rw [syndrome_xorBits (by simp [he]), syndrome_encodeBlock, BitVec.zero_xor]

/-- Settles O31, from the closed form of the syndrome and its linearity. -/
theorem syndromeIsTheXorOfPositions : Obligations.SyndromeIsTheXorOfPositions := by
  unfold Obligations.SyndromeIsTheXorOfPositions
  refine ⟨fun w s hw => ?_, fun w v hw hv => syndrome_xorBits (hw.trans hv.symm),
    fun d e _ he => syndrome_xorBits_encodeBlock d he⟩
  rw [← syndrome_eq_xorOfPositions]
  exact exec_decb_synField hw s

/-- Two flipped positions of a codeword give the syndrome i ⊕ j. -/
theorem syndrome_flipAt_flipAt_encodeBlock (d : List Bit) {i j : Nat} (hi : 1 ≤ i) (hi' : i ≤ 31) (hj : 1 ≤ j)
    (hj' : j ≤ 31) : syndrome (flipAt (flipAt (encodeBlock d) i) j) = BitVec.ofNat 5 (i ^^^ j) := by
  rw [syndrome_flipAt (by simp) hj hj', syndrome_flipAt (by simp) hi hi', syndrome_encodeBlock, BitVec.zero_xor,
    BitVec.ofNat_xor]

/-- Three flips at distinct positions leave each of the three wrong. -/
theorem bitAt_flipAt_three_ne {w : List Bit} {i j k : Nat} (hi : i ∈ positions) (hj : j ∈ positions)
    (hk : k ∈ positions) (hw : w.length = 31) (hij : i ≠ j) (hki : k ≠ i) (hkj : k ≠ j) {q : Nat}
    (hq : q ∈ [i, j, k]) : bitAt (flipAt (flipAt (flipAt w i) j) k) q ≠ bitAt w q := by
  rw [mem_positions] at hi hj hk
  have hflips : 1 ≤ q → bitAt (flipAt (flipAt (flipAt w i) j) k) q =
      (bitAt w q ^^ decide (i = q) ^^ decide (j = q) ^^ decide (k = q)) := by
    intro hq1
    rw [bitAt_flipAt _ k q hk.1 hq1 (by simp [hw, hk.2]), bitAt_flipAt _ j q hj.1 hq1 (by simp [hw, hj.2]),
      bitAt_flipAt w i q hi.1 hq1 (by omega)]
  simp only [List.mem_cons, List.not_mem_nil, or_false] at hq
  obtain rfl | rfl | rfl := hq
  · simp [hflips hi.1, hij.symm, hki]
  · simp [hflips hj.1, hij, hkj]
  · simp [hflips hk.1, hki.symm, hkj.symm]

/-- Words that differ at a data position carry different data. -/
theorem extractData_ne {u v : List Bit} {q : Nat} (hq : q ∈ dataPos) (h : bitAt u q ≠ bitAt v q) :
    extractData u ≠ extractData v :=
  fun heq => h (extractData_eq_iff.1 heq q hq)

/-- The XOR of two distinct parity positions has two bits set, so it is no parity position (40_codec R93). -/
theorem parityPos_xor_notMem : ∀ i ∈ parityPos, ∀ j ∈ parityPos, i ≠ j → i ^^^ j ∉ parityPos := by decide

/-- i ⊕ j is a third position. -/
theorem xor_mem_positions {i j : Nat} (hi : i ≤ 31) (hj : j ≤ 31) (hij : i ≠ j) : i ^^^ j ∈ positions := by
  have hlt : i ^^^ j < 2 ^ 5 := Nat.xor_lt_two_pow (by omega) (by omega)
  have hne : i ^^^ j ≠ 0 := fun h => hij (Nat.xor_eq_zero_iff.1 h)
  rw [mem_positions]
  omega

/-- One of i, j and i ⊕ j is a data position. -/
theorem exists_mem_dataPos_of_pair {i j : Nat} (hi : i ∈ positions) (hj : j ∈ positions) (hij : i ≠ j) :
    ∃ q ∈ [i, j, i ^^^ j], q ∈ dataPos := by
  by_cases hid : i ∈ dataPos
  · exact ⟨i, by simp, hid⟩
  by_cases hjd : j ∈ dataPos
  · exact ⟨j, by simp, hjd⟩
  have hip := (mem_parityPos_or_mem_dataPos hi).resolve_right hid
  have hjp := (mem_parityPos_or_mem_dataPos hj).resolve_right hjd
  have hthird := xor_mem_positions (mem_positions.1 hi).2 (mem_positions.1 hj).2 hij
  exact ⟨i ^^^ j, by simp,
    (mem_parityPos_or_mem_dataPos hthird).resolve_left (parityPos_xor_notMem i hip j hjp hij)⟩

/-- Settles O33: the syndrome names the third position i ⊕ j, so i, j and i ⊕ j all end up wrong, and one of them is a
data position. -/
theorem everyDoubleErrorIsMiscorrected : Obligations.EveryDoubleErrorIsMiscorrected := by
  unfold Obligations.EveryDoubleErrorIsMiscorrected
  intro d i j s hd hi hi' hj hj' hij
  have hpi : i ∈ positions := mem_positions.2 ⟨hi, hi'⟩
  have hpj : j ∈ positions := mem_positions.2 ⟨hj, hj'⟩
  have hpk : i ^^^ j ∈ positions := xor_mem_positions hi' hj' hij
  obtain ⟨hk, hk'⟩ := mem_positions.1 hpk
  have hki : i ^^^ j ≠ i := by simpa using Nat.ne_of_gt hj
  have hkj : i ^^^ j ≠ j := by simpa using Nat.ne_of_gt hi
  have hwrong : ∀ q ∈ [i, j, i ^^^ j],
      bitAt (flipAt (flipAt (flipAt (encodeBlock d) i) j) (i ^^^ j)) q ≠ bitAt (encodeBlock d) q :=
    fun q hq => bitAt_flipAt_three_ne hpi hpj hpk (encodeBlock_length d) hij hki hkj hq
  refine ⟨encodeBlock d, _, exec_encb_of_length hd s, Nat.ne_of_gt hk, hki, hkj, hk', fun hip hjp =>
    parityPos_xor_notMem i hip j hjp hij, fun q hq => hwrong q (List.mem_append_left [i ^^^ j] hq), rfl, ?_, ?_⟩
  · exact exec_decb_of_syndrome_eq (by simp) hk hk' (syndrome_flipAt_flipAt_encodeBlock d hi hi' hj hj') s
  · obtain ⟨q, hq, hqd⟩ := exists_mem_dataPos_of_pair hpi hpj hij
    have hne := extractData_ne hqd (hwrong q hq)
    rwa [extractData_encodeBlock hd] at hne

/-- The error positions 1, 2 and 3 cancel (40_codec R94). -/
theorem syndrome_flipAt_one_two_three (d : List Bit) :
    syndrome (flipAt (flipAt (flipAt (encodeBlock d) 1) 2) 3) = 0#5 := by
  rw [syndrome_flipAt (by simp) (by decide) (by decide),
    syndrome_flipAt_flipAt_encodeBlock d (by decide) (by decide) (by decide) (by decide)]
  decide

/-- Settles O34: the syndrome is the XOR of the pattern's positions; at 1, 2 and 3 it is 0, and data position 3 is
wrong. -/
theorem heavierErrorsGetNoGuarantee : Obligations.HeavierErrorsGetNoGuarantee := by
  unfold Obligations.HeavierErrorsGetNoGuarantee
  refine ⟨fun d e s hd he => ⟨encodeBlock d, exec_encb_of_length hd s, ?_⟩,
    fun d s hd => ⟨encodeBlock d, _, exec_encb_of_length hd s,
      exec_decb_of_syndrome_eq_zero (by simp) (syndrome_flipAt_one_two_three d) s, ?_⟩⟩
  · have hlen : (xorBits (encodeBlock d) e).length = 31 := by
      rw [xorBits_length (by simp [he]), encodeBlock_length]
    rw [← syndrome_eq_xorOfPositions, ← syndrome_xorBits_encodeBlock d he]
    exact ⟨fun hzero => exec_decb_of_syndrome_eq_zero hlen hzero s,
      fun hne => exec_decb_of_syndrome_ne_zero hlen hne s⟩
  · have hwrong : bitAt (flipAt (flipAt (flipAt (encodeBlock d) 1) 2) 3) 3 ≠ bitAt (encodeBlock d) 3 :=
      bitAt_flipAt_three_ne (by decide) (by decide) (by decide) (encodeBlock_length d) (by decide) (by decide)
        (by decide) (by decide)
    have hne := extractData_ne (by decide) hwrong
    rwa [extractData_encodeBlock hd] at hne

/-! ## Linearity of the encoder (40_codec R95) -/

/-- The XOR of two codewords has syndrome 0, so it is the codeword of its data. -/
theorem encodeBlock_xorBits {a b : List Bit} (ha : a.length = 26) (hb : b.length = 26) :
    encodeBlock (xorBits a b) = xorBits (encodeBlock a) (encodeBlock b) := by
  have hlen : (encodeBlock a).length = (encodeBlock b).length := by simp
  have hsyn : syndrome (xorBits (encodeBlock a) (encodeBlock b)) = 0#5 := by
    rw [syndrome_xorBits_encodeBlock a (encodeBlock_length b), syndrome_encodeBlock]
  rw [← encodeBlock_extractData (by rw [xorBits_length hlen, encodeBlock_length]) hsyn, extractData_xorBits hlen,
    extractData_encodeBlock ha, extractData_encodeBlock hb]

/-- The unit block of data bit j (40_codec R95). -/
def unitBlock (j : Nat) : List Bit :=
  (List.replicate 26 false).set j true

@[simp] theorem unitBlock_length (j : Nat) : (unitBlock j).length = 26 := by
  simp [unitBlock]

theorem unitBlock_getD {k : Nat} (hk : k < 26) (j : Nat) : (unitBlock j).getD k false = decide (k = j) := by
  by_cases h : k = j
  · subst h
    simp [unitBlock, hk]
  · rw [unitBlock, List.getD_eq_getElem?_getD, List.getElem?_set_ne (Ne.symm h), ← List.getD_eq_getElem?_getD,
      List.getD_replicate _ hk, decide_eq_false h]

/-- The XOR of a block with the unit blocks of a list of data bits. -/
def xorUnits (a : List Bit) (js : List Nat) : List Bit :=
  js.foldl (fun acc j => xorBits acc (unitBlock j)) a

theorem xorUnits_length {a : List Bit} (ha : a.length = 26) (js : List Nat) : (xorUnits a js).length = 26 := by
  induction js generalizing a with
  | nil => exact ha
  | cons j js ih => exact ih (by rw [xorBits_length (by simp [ha]), ha])

theorem xorUnits_getD {a : List Bit} (ha : a.length = 26) (js : List Nat) {k : Nat} (hk : k < 26) :
    (xorUnits a js).getD k false = (a.getD k false ^^ xorAll (js.map fun j => decide (k = j))) := by
  induction js generalizing a with
  | nil => simp [xorUnits, xorAll]
  | cons j js ih =>
    have hlen : a.length = (unitBlock j).length := by simp [ha]
    have hstep := ih (a := xorBits a (unitBlock j)) (by rw [xorBits_length hlen, ha])
    rw [xorBits_getD hlen, unitBlock_getD hk, Bool.xor_assoc] at hstep
    exact hstep

/-- A block is the XOR of the unit blocks of its 1 bits. -/
theorem xorUnits_ones {d : List Bit} (hd : d.length = 26) :
    xorUnits (List.replicate 26 false) ((List.range 26).filter (d.getD · false)) = d := by
  have hlen := xorUnits_length (a := List.replicate 26 false) (by simp) ((List.range 26).filter (d.getD · false))
  apply eq_of_getD (hlen.trans hd.symm)
  intro k hk
  have hk26 : k < 26 := hd ▸ hk
  have hnodup : ((List.range 26).filter (d.getD · false)).Nodup := List.nodup_range.filter _
  have hmem : k ∈ (List.range 26).filter (d.getD · false) ↔ d.getD k false = true := by simp [hk26]
  rw [xorUnits_getD (by simp) _ hk26, xorAll_map_decide_eq hnodup, List.getD_replicate _ hk26, Bool.false_xor]
  simp only [hmem, Bool.decide_eq_true]

/-- Encoding a XOR of unit blocks is the XOR of their codewords. -/
theorem encodeBlock_xorUnits {a : List Bit} (ha : a.length = 26) (js : List Nat) :
    encodeBlock (xorUnits a js) = js.foldl (fun acc j => xorBits acc (encodeBlock (unitBlock j))) (encodeBlock a) := by
  induction js generalizing a with
  | nil => rfl
  | cons j js ih =>
    have hlen : (xorBits a (unitBlock j)).length = 26 := by rw [xorBits_length (by simp [ha]), ha]
    rw [List.foldl_cons, ← encodeBlock_xorBits ha (unitBlock_length j)]
    exact ih hlen

/-- Settles O28: codewords are closed under XOR, and a block is the XOR of the unit blocks of its 1 bits. -/
theorem encodingIsLinear : Obligations.EncodingIsLinear := by
  unfold Obligations.EncodingIsLinear
  refine ⟨fun a b s ha hb => ⟨_, _, exec_encb_of_length ha s, exec_encb_of_length hb s, ?_⟩, fun d s hd => ?_⟩
  · rw [exec_encb_of_length (by rw [xorBits_length (ha.trans hb.symm), ha]), encodeBlock_xorBits ha hb]
  · have hsum := encodeBlock_xorUnits (a := List.replicate 26 false) (by simp)
      ((List.range 26).filter (d.getD · false))
    rw [xorUnits_ones hd, encodeBlock_zeros] at hsum
    rw [exec_encb_of_length hd, hsum]
    rfl

end Sys2Proof.Machine

namespace Sys2Proof.Machine

/-! ## Sequences read index by index (00_scope R13, R14) -/

theorem getD_drop_take (s : List Bit) (m : Nat) {n j : Nat} (hj : j < n) :
    ((s.drop m).take n).getD j false = s.getD (m + j) false := by
  simp [List.getD_eq_getElem?_getD, hj]

/-- Reading outside a sequence gives 0, so zeros at its end change no reading. -/
theorem getD_append_zeros (s : List Bit) (n k : Nat) : (s ++ zeros n).getD k false = s.getD k false := by
  by_cases hk : k < s.length
  · exact List.getD_append s (zeros n) false k hk
  · rw [List.getD_append_right s (zeros n) false k (by omega), List.getD_eq_default s false (by omega)]
    by_cases hn : k - s.length < n
    · exact List.getD_replicate false hn
    · exact List.getD_eq_default _ false (by simpa using hn)

theorem bitsFromInt_getD (v : Nat) {n k : Nat} (hk : k < n) :
    (bitsFromInt v n).getD k false = v.testBit (n - 1 - k) := by
  simp [bitsFromInt, hk]

/-! ## Bytes and their big-endian value (00_scope R14) -/

/-- The weight of a byte is that of its eight bits. -/
theorem byteWeight_eq_two_pow (n : Nat) : 256 ^ n = 2 ^ (8 * n) :=
  (pow_mul 2 8 n).symm

theorem beValue_lt (b : List Byte) : beValue b < 2 ^ (8 * b.length) := by
  induction b with
  | nil => decide
  | cons x b ih =>
    calc beValue (x :: b)
        < (x.toNat + 1) * 2 ^ (8 * b.length) := by
          rw [beValue, byteWeight_eq_two_pow]
          linarith
      _ ≤ 2 ^ 8 * 2 ^ (8 * b.length) := Nat.mul_le_mul_right _ x.isLt
      _ = 2 ^ (8 * (x :: b).length) := by rw [← pow_add, List.length_cons]; congr 1; omega

/-- Byte k holds bits 8·(len − 1 − k) and up of the value. -/
theorem testBit_beValue {b : List Byte} {k t : Nat} (hk : k < b.length) (ht : t < 8) :
    (beValue b).testBit (8 * (b.length - 1 - k) + t) = (b.getD k 0#8).getLsbD t := by
  induction b generalizing k with
  | nil => simp at hk
  | cons x b ih =>
    rw [beValue, byteWeight_eq_two_pow, Nat.mul_comm, Nat.testBit_two_pow_mul_add _ (beValue_lt b)]
    cases k with
    | zero => simp [BitVec.getLsbD]
    | succ k =>
      have hk' : k < b.length := by simpa using hk
      have hidx : (x :: b).length - 1 - (k + 1) = b.length - 1 - k := by rw [List.length_cons]; omega
      rw [hidx, if_pos (by omega), ih hk', List.getD_cons_succ]

theorem beBytes_getLsbD (v : Nat) {n k t : Nat} (hk : k < n) (ht : t < 8) :
    ((beBytes v n).getD k 0#8).getLsbD t = v.testBit (8 * (n - 1 - k) + t) := by
  have hbyte : (beBytes v n).getD k 0#8 = BitVec.ofNat 8 (v / 2 ^ (8 * (n - 1 - k))) := by
    simp [beBytes, hk, byteWeight_eq_two_pow]
  rw [hbyte, BitVec.getLsbD_ofNat, decide_eq_true ht, Bool.true_and, Nat.testBit_div_two_pow, Nat.add_comm]

/-- The two conversions of R14 between bytes and their value are inverse. -/
theorem beBytes_beValue (b : List Byte) : beBytes (beValue b) b.length = b := by
  apply List.ext_getElem (beBytes_length _ _)
  intro k hk hk'
  apply BitVec.eq_of_getLsbD_eq
  intro t ht
  rw [← List.getD_eq_getElem _ 0#8 hk, ← List.getD_eq_getElem b 0#8 hk', beBytes_getLsbD _ hk' ht,
    testBit_beValue hk' ht]

/-! ## The framed sequence (41_framer R100 to R102) -/

theorem frameBits_getD_header (b : List Byte) {k : Nat} (hk : k < 32) :
    (frameBits b).getD k false = b.length.testBit (31 - k) := by
  rw [frameBits, List.getD_append _ _ _ _ (by simpa using hk), bitsFromInt_getD _ hk]

theorem frameBits_getD_content {b : List Byte} {k t : Nat} (hk : k < b.length) (ht : t < 8) :
    (frameBits b).getD (32 + 8 * k + (7 - t)) false = (b.getD k 0#8).getLsbD t := by
  have hoff : 32 + 8 * k + (7 - t) - (bitsFromInt b.length 32).length = 8 * k + (7 - t) := by
    rw [bitsFromInt_length]
    omega
  have hbit : 8 * b.length - 1 - (8 * k + (7 - t)) = 8 * (b.length - 1 - k) + t := by omega
  rw [frameBits, List.getD_append_right _ _ _ _ (by rw [bitsFromInt_length]; omega), hoff,
    bitsFromInt_getD _ (by omega), hbit, testBit_beValue hk ht]

/-! ## The unframing step (41_framer R103 to R107) -/

/-- A sequence shorter than its header says is FRAMING, and so is one shorter than a header (41_framer R104, R105). -/
theorem unframeBits_of_lt {u : List Bit} (h : u.length < 32 + 8 * headerCount u) :
    unframeBits u = .error .framing := by
  obtain ⟨-, hu⟩ | ⟨-, -, hu⟩ | ⟨hle, -⟩ := unframeBits_cases u
  · exact hu
  · exact hu
  · omega

theorem unframeBits_of_le {u : List Bit} (h : 32 + 8 * headerCount u ≤ u.length) :
    unframeBits u = .ok (beBytes (intFromBits ((u.drop 32).take (8 * headerCount u))) (headerCount u)) := by
  obtain ⟨hlt, -⟩ | ⟨-, hlt, -⟩ | ⟨-, hu⟩ := unframeBits_cases u
  · omega
  · omega
  · exact hu

/-- The bytes read from a sequence, bit by bit (41_framer R103). -/
theorem unframed_getLsbD {u : List Bit} {n k t : Nat} (hn : 32 + 8 * n ≤ u.length) (hk : k < n) (ht : t < 8) :
    ((beBytes (intFromBits ((u.drop 32).take (8 * n))) n).getD k 0#8).getLsbD t =
      u.getD (32 + 8 * k + (7 - t)) false := by
  have hlen : ((u.drop 32).take (8 * n)).length = 8 * n := by rw [List.length_take, List.length_drop]; omega
  have hbit : 8 * (n - 1 - k) + t = ((u.drop 32).take (8 * n)).length - 1 - (8 * k + (7 - t)) := by omega
  rw [beBytes_getLsbD _ hk ht, hbit, testBit_intFromBits (by omega), getD_drop_take _ _ (by omega), ← Nat.add_assoc]

theorem headerCount_append {u : List Bit} (h : 32 ≤ u.length) (t : List Bit) :
    headerCount (u ++ t) = headerCount u := by
  rw [headerCount, List.take_append_of_le_length h, headerCount]

/-- Bits after those the header asks for are ignored (41_framer R106). -/
theorem unframeBits_append {u : List Bit} (h : 32 + 8 * headerCount u ≤ u.length) (t : List Bit) :
    unframeBits (u ++ t) = unframeBits u := by
  have hcount : headerCount (u ++ t) = headerCount u := headerCount_append (by omega) t
  have happ : 32 + 8 * headerCount (u ++ t) ≤ (u ++ t).length := by rw [hcount, List.length_append]; omega
  rw [unframeBits_of_le happ, unframeBits_of_le h, hcount, List.drop_append_of_le_length (by omega),
    List.take_append_of_le_length (by rw [List.length_drop]; omega)]

/-- Unframing inverts framing, whatever bits follow (41_framer R107). -/
theorem unframeBits_frameBits_append {b : List Byte} (hb : b.length < 2 ^ 32) (t : List Bit) :
    unframeBits (frameBits b ++ t) = .ok b := by
  have hcount : headerCount (frameBits b) = b.length := headerCount_frameBits b hb
  have hlen : 32 + 8 * headerCount (frameBits b) ≤ (frameBits b).length := by simp [hcount]
  have hcontent : ((frameBits b).drop 32).take (8 * b.length) = bitsFromInt (beValue b) (8 * b.length) := by
    simp [frameBits]
  rw [unframeBits_append hlen, unframeBits_of_le hlen, hcount, hcontent, intFromBits_bitsFromInt_of_lt (beValue_lt b),
    beBytes_beValue]

/-! ## How FRAME and UNFRAME end (41_framer R100, R103) -/

/-- STATUS after FRAMING (60_exceptions R140, R145). -/
theorem errorStatus_framing : errorStatus .framing = 0x00000002#32 := by decide

/-- STATUS after LENGTH_OVERFLOW (60_exceptions R140, R145). -/
theorem errorStatus_lengthOverflow : errorStatus .lengthOverflow = 0x00000005#32 := by decide

theorem exec_of_framing {i : Instr} {s : State} (h : resultOf s.params i = .error .framing) :
    exec i s = .next (withArch s 0x00000002#32 none) := by
  rw [exec_eq_withArch, h, statusOfResult, errorStatus_framing, outOfResult]

theorem exec_of_lengthOverflow {i : Instr} {s : State} (h : resultOf s.params i = .error .lengthOverflow) :
    exec i s = .next (withArch s 0x00000005#32 none) := by
  rw [exec_eq_withArch, h, statusOfResult, errorStatus_lengthOverflow, outOfResult]

/-- A completion with CORR and SYN zero leaves VALID = 1 and nothing else in STATUS (10_state R26). -/
theorem exec_of_plain {i : Instr} {s : State} {v : Value}
    (h : resultOf s.params i = .ok { out := v, corr := false, syn := 0#5 }) :
    exec i s = .next (withArch s 0x00000008#32 (some v)) := by
  rw [exec_eq_withArch, h, statusOfResult_plain, outOfResult]

theorem exec_frame_of_le {b : List Byte} {s : State} (hb : b.length ≤ s.params.maxLenBytes) :
    exec (.frame (.bytes b)) s = .next (withArch s 0x00000008#32 (some (.bits (frameBits b)))) :=
  exec_of_plain (frameResult_of_le _ b hb)

theorem exec_unframe_of_ok {u : List Bit} {b : List Byte} {s : State}
    (hlim : withinLimit s.params.maxDecodeBits u.length) (hu : unframeBits u = .ok b) :
    exec (.unframe (.bits u)) s = .next (withArch s 0x00000008#32 (some (.bytes b))) := by
  apply exec_of_plain
  rw [resultOf, unframeResult_of_within _ u hlim, hu, Except.map]

theorem exec_unframe_of_lt {u : List Bit} {s : State} (hlim : withinLimit s.params.maxDecodeBits u.length)
    (hu : u.length < 32 + 8 * headerCount u) :
    exec (.unframe (.bits u)) s = .next (withArch s 0x00000002#32 none) := by
  apply exec_of_framing
  rw [resultOf, unframeResult_of_within _ u hlim, unframeBits_of_lt hu, Except.map]

/-! ## FRAME and UNFRAME on every operand -/

theorem frameBits_nil : frameBits [] = List.replicate 32 false := by decide

/-- The framed sequence of R102's example. -/
theorem frameBits_example :
    frameBits [0x01#8, 0x02#8, 0x03#8, 0x04#8] = bitsFromInt 0x0000000401020304 64 := by decide

/-- Settles O35: a framed bit is a bit of the length or of the bytes' value, whose bits are the bytes'. -/
theorem frameEmitsHeaderAndContent : Obligations.FrameEmitsHeaderAndContent := by
  unfold Obligations.FrameEmitsHeaderAndContent
  refine ⟨fun b s hb => ⟨frameBits b, exec_frame_of_le hb, frameBits_length b, fun k => frameBits_getD_header b,
      fun k t => frameBits_getD_content⟩,
    fun b s hb => exec_of_lengthOverflow (frameResult_of_lt _ b hb),
    fun x s hx => exec_of_illegalCommand (frameResult_of_kind _ x hx), fun s hs => ⟨?_, ?_⟩⟩
  · rw [exec_frame_of_le (by simp), frameBits_nil]
  · rw [exec_frame_of_le (by simpa using hs), frameBits_example]

/-- Settles O36: the unframing step case by case; the example is a framed byte with one bit after it. -/
theorem unframeReadsHeaderAndContent : Obligations.UnframeReadsHeaderAndContent := by
  unfold Obligations.UnframeReadsHeaderAndContent
  refine ⟨fun u s hlim => ⟨fun h => exec_unframe_of_lt hlim (by omega), fun _ => exec_unframe_of_lt hlim,
      fun h => ⟨_, exec_unframe_of_ok hlim (unframeBits_of_le h), beBytes_length _ _, fun k t hk ht => ?_⟩⟩,
    fun u m s hm hu => exec_of_lengthOverflow (unframeResult_of_over _ u (exceeds_eq_true _ m _ hm hu)),
    fun x s hx => exec_of_illegalCommand (unframeResult_of_kind _ x hx), fun s hlim => ?_⟩
  · exact unframed_getLsbD h (by simpa using hk) ht
  · exact exec_unframe_of_ok hlim (unframeBits_frameBits_append (b := [0xA5#8]) (by decide) [true])

/-- Settles O37: the unframing step ignores the bits after those the header asks for. -/
theorem unframeIgnoresTrailingBits : Obligations.UnframeIgnoresTrailingBits := by
  unfold Obligations.UnframeIgnoresTrailingBits
  intro u t s hlim hu
  have hlim' : withinLimit s.params.maxDecodeBits u.length :=
    fun m hm => (by simp : u.length ≤ (u ++ t).length).trans (hlim m hm)
  have hok := unframeBits_of_le hu
  exact ⟨_, exec_unframe_of_ok hlim' hok, exec_unframe_of_ok hlim ((unframeBits_append hu t).trans hok)⟩

/-- Settles O38: legal parameters keep the length within the header's 32 bits, so unframing inverts framing. -/
theorem framingRoundTrips : Obligations.FramingRoundTrips := by
  unfold Obligations.FramingRoundTrips
  rintro b t s ⟨-, -, hmax, -⟩ hb hlim
  have hlim' : withinLimit s.params.maxDecodeBits (frameBits b ++ t).length := by
    rwa [List.length_append, frameBits_length]
  exact ⟨frameBits b, exec_frame_of_le hb,
    exec_unframe_of_ok hlim' (unframeBits_frameBits_append (by omega) t)⟩

/-! ## Blocks of 26 bits (41_framer R108 to R111) -/

/-- Bit j of block m is bit 26·m + j of the sequence, or padding. -/
theorem chunk26_getD {s : List Bit} {m j : Nat} (hm : m < (chunk26 s).length) (hj : j < 26) :
    ((chunk26 s).getD m []).getD j false = s.getD (26 * m + j) false := by
  have hblock : (chunk26 s).getD m [] = padBlock ((s.drop (26 * m)).take 26) := by
    rw [List.getD_eq_getElem _ _ hm]
    simp [chunk26]
  rw [hblock, padBlock, getD_append_zeros, getD_drop_take _ _ hj]

/-- There are ⌈len/26⌉ blocks (41_framer R110). -/
theorem chunk26_length_bounds (s : List Bit) :
    s.length ≤ 26 * (chunk26 s).length ∧ 26 * (chunk26 s).length < s.length + 26 := by
  rw [chunk26_length]
  omega

theorem concatBlocks_cons (b : List Bit) (blocks : List (List Bit)) :
    concatBlocks (b :: blocks) = b ++ concatBlocks blocks :=
  List.flatten_cons

theorem concatBlocks_length {blocks : List (List Bit)} (h : ∀ b ∈ blocks, b.length = 26) :
    (concatBlocks blocks).length = 26 * blocks.length := by
  induction blocks with
  | nil => rfl
  | cons b blocks ih =>
    obtain ⟨hb, hblocks⟩ := List.forall_mem_cons.1 h
    rw [concatBlocks_cons, List.length_append, hb, ih hblocks, List.length_cons]
    omega

theorem concatBlocks_getD {blocks : List (List Bit)} (h : ∀ b ∈ blocks, b.length = 26) {m j : Nat}
    (hm : m < blocks.length) (hj : j < 26) :
    (concatBlocks blocks).getD (26 * m + j) false = (blocks.getD m []).getD j false := by
  induction blocks generalizing m with
  | nil => simp at hm
  | cons b blocks ih =>
    obtain ⟨hb, hblocks⟩ := List.forall_mem_cons.1 h
    rw [concatBlocks_cons]
    cases m with
    | zero => rw [List.getD_append _ _ _ _ (by omega), Nat.mul_zero, Nat.zero_add, List.getD_cons_zero]
    | succ m =>
      have hidx : 26 * (m + 1) + j - b.length = 26 * m + j := by omega
      rw [List.getD_append_right _ _ _ _ (by omega), hidx, ih hblocks (by simpa using hm), List.getD_cons_succ]

/-- The blocks joined are the sequence with its zero padding: bit by bit, a bit of the join is one of a block and so
one of the sequence or padding (41_framer R111). -/
theorem concatBlocks_chunk26 (s : List Bit) :
    concatBlocks (chunk26 s) = s ++ zeros ((26 - s.length % 26) % 26) := by
  have hblocks : ∀ b ∈ chunk26 s, b.length = 26 := chunk26_block_length s
  have hlen : (concatBlocks (chunk26 s)).length = 26 * ((s.length + 25) / 26) := by
    rw [concatBlocks_length hblocks, chunk26_length]
  have hpad : (s ++ zeros ((26 - s.length % 26) % 26)).length = 26 * ((s.length + 25) / 26) := by
    rw [List.length_append, zeros_length]
    omega
  apply eq_of_getD (hlen.trans hpad.symm)
  intro k hk
  have hm : k / 26 < (chunk26 s).length := by
    rw [chunk26_length]
    omega
  have hj : k % 26 < 26 := Nat.mod_lt k (by decide)
  rw [getD_append_zeros, ← Nat.div_add_mod k 26, concatBlocks_getD hblocks hm hj, chunk26_getD hm hj]

/-- Settles O39: blocks of 26 bits, joined in order, hold bit j of block m at 26·m + j. -/
theorem chunksJoinToThePaddedSequence : Obligations.ChunksJoinToThePaddedSequence := by
  unfold Obligations.ChunksJoinToThePaddedSequence
  refine ⟨fun s => ?_, rfl, fun blocks h => ⟨concatBlocks_length h, fun m j => concatBlocks_getD h⟩⟩
  obtain ⟨hle, hlt⟩ := chunk26_length_bounds s
  exact ⟨chunk26_block_length s, hle, hlt, concatBlocks_chunk26 s⟩

/-! ## The number of codewords (41_framer R110, 42_stream R120) -/

theorem exec_encs_of_le {b : List Byte} {s : State} (hb : b.length ≤ s.params.maxLenBytes) :
    exec (.encs (.bytes b)) s = .next (withArch s 0x00000008#32 (some (.words (encodeStream b)))) :=
  exec_of_plain (encsResult_of_le _ b hb)

theorem encodeStream_length (b : List Byte) : (encodeStream b).length = (32 + 8 * b.length + 25) / 26 := by
  simp [encodeStream]

/-- Settles O41: ENCS gives one codeword for each block of the framed sequence. -/
theorem streamBlockCounts : Obligations.StreamBlockCounts := by
  unfold Obligations.StreamBlockCounts
  refine ⟨chunk26_length_bounds, fun b s hb => ⟨encodeStream b, exec_encs_of_le hb, ?_⟩⟩
  rw [encodeStream_length]
  omega

end Sys2Proof.Machine

namespace Sys2Proof.Machine

/-! ## Codewords received with at most one error each (42_stream R124) -/

theorem decodeBlock_encodeBlock {d : List Bit} (hd : d.length = 26) : decodeBlock (encodeBlock d) = (d, 0#5) := by
  rw [decodeBlock, syndrome_encodeBlock, correct, if_pos rfl, extractData_encodeBlock hd]

/-- A position is not 0 as a syndrome (40_codec R88). -/
theorem ofNat_position_ne_zero {i : Nat} (hi : 1 ≤ i) (hi' : i ≤ 31) : BitVec.ofNat 5 i ≠ 0#5 := by
  intro hzero
  have hnat := congrArg BitVec.toNat hzero
  rw [BitVec.toNat_ofNat, Nat.mod_eq_of_lt (by omega), BitVec.toNat_zero] at hnat
  omega

/-- The syndrome names the flipped position, so the corrector flips it back. -/
theorem decodeBlock_flipAt_encodeBlock {d : List Bit} (hd : d.length = 26) {i : Nat} (hi : 1 ≤ i) (hi' : i ≤ 31) :
    decodeBlock (flipAt (encodeBlock d) i) = (d, BitVec.ofNat 5 i) := by
  have hsyn : syndrome (flipAt (encodeBlock d) i) = BitVec.ofNat 5 i := by
    rw [syndrome_flipAt (encodeBlock_length d) hi hi', syndrome_encodeBlock, BitVec.zero_xor]
  have hnat : (BitVec.ofNat 5 i).toNat = i := by rw [BitVec.toNat_ofNat, Nat.mod_eq_of_lt (by omega)]
  rw [decodeBlock, hsyn, correct, if_neg (ofNat_position_ne_zero hi hi'), hnat, flipAt_flipAt hi (by simpa using hi'),
    extractData_encodeBlock hd]

/-- What the decoder makes of a codeword with at most one error: the data, and a nonzero syndrome if there was one. -/
theorem decodeBlock_of_atMostOneError {d r : List Bit} (hd : d.length = 26)
    (h : r = encodeBlock d ∨ ∃ i, 1 ≤ i ∧ i ≤ 31 ∧ r = flipAt (encodeBlock d) i) :
    (decodeBlock r).1 = d ∧ r.length = 31 ∧ ((decodeBlock r).2 = 0#5 → r = encodeBlock d) := by
  obtain rfl | ⟨i, hi, hi', rfl⟩ := h
  · exact ⟨by rw [decodeBlock_encodeBlock hd], encodeBlock_length d, fun _ => rfl⟩
  · rw [decodeBlock_flipAt_encodeBlock hd hi hi']
    exact ⟨rfl, by simp, fun hzero => absurd hzero (ofNat_position_ne_zero hi hi')⟩

theorem decodeData_cons (w : List Bit) (ws : List (List Bit)) :
    decodeData (w :: ws) = (decodeBlock w).1 ++ decodeData ws := rfl

theorem decodeData_append (ws vs : List (List Bit)) : decodeData (ws ++ vs) = decodeData ws ++ decodeData vs := by
  simp [decodeData, concatBlocks]

theorem anyCorrected_cons (w : List Bit) (ws : List (List Bit)) :
    anyCorrected (w :: ws) = ((decodeBlock w).2 != 0#5 || anyCorrected ws) := rfl

theorem anyCorrected_append (ws vs : List (List Bit)) :
    anyCorrected (ws ++ vs) = (anyCorrected ws || anyCorrected vs) :=
  List.any_append

/-- Codewords with at most one error each decode to their blocks, and DECS corrects one of them if any differs. -/
theorem decode_of_atMostOneErrorEach {blocks received : List (List Bit)} (hblocks : ∀ b ∈ blocks, b.length = 26)
    (h : atMostOneErrorEach (blocks.map encodeBlock) received) :
    decodeData received = concatBlocks blocks ∧ (∀ w ∈ received, w.length = 31) ∧
      (anyCorrected received = false → received = blocks.map encodeBlock) := by
  induction blocks generalizing received with
  | nil =>
    obtain rfl := List.forall₂_nil_left_iff.1 h
    exact ⟨rfl, by simp, fun _ => rfl⟩
  | cons d blocks ih =>
    obtain ⟨r, rest, hr, hrest, rfl⟩ := List.forall₂_cons_left_iff.1 h
    obtain ⟨hd, hblocks'⟩ := List.forall_mem_cons.1 hblocks
    obtain ⟨hdata, hlen, hsame⟩ := decodeBlock_of_atMostOneError hd hr
    obtain ⟨hdatas, hlens, hsames⟩ := ih hblocks' hrest
    refine ⟨by rw [decodeData_cons, concatBlocks_cons, hdata, hdatas], List.forall_mem_cons.2 ⟨hlen, hlens⟩, ?_⟩
    intro hnone
    simp only [anyCorrected_cons, Bool.or_eq_false_iff, bne_eq_false_iff_eq] at hnone
    rw [hsame hnone.1, hsames hnone.2, List.map_cons]

/-! ## How DECS ends on received codewords -/

theorem atMostOneErrorEach_refl (sent : List (List Bit)) : atMostOneErrorEach sent sent :=
  List.forall₂_same.2 fun _ _ => .inl rfl

theorem anyCorrected_encodeStream (b : List Byte) : anyCorrected (encodeStream b) = false := by
  simp [anyCorrected, encodeStream, decodeBlock]

theorem encodeStream_word_length (b : List Byte) : ∀ w ∈ encodeStream b, w.length = 31 := by
  simp [encodeStream]

/-- The stream of a byte sequence, received with at most one error in each codeword and with words after it: the joined
data starts with the framed sequence, and unframing ignores the rest. -/
theorem decsResult_of_received_append {p : Params} {b : List Byte} {received extra : List (List Bit)}
    (hb : b.length < 2 ^ 32) (herr : atMostOneErrorEach (encodeStream b) received)
    (hextra : ∀ w ∈ extra, w.length = 31)
    (hlim : withinLimit p.maxDecodeBits (26 * (received ++ extra).length)) :
    decsResult p (.words (received ++ extra)) =
      .ok { out := .bytes b, corr := anyCorrected (received ++ extra), syn := 0#5 } := by
  obtain ⟨hdata, hlen, -⟩ := decode_of_atMostOneErrorEach (chunk26_block_length (frameBits b)) herr
  have hwords : ∀ w ∈ received ++ extra, w.length = 31 := List.forall_mem_append.2 ⟨hlen, hextra⟩
  rw [decsResult_of_within p _ hlim hwords, decodeData_append, hdata, concatBlocks_chunk26, List.append_assoc,
    unframeBits_frameBits_append hb, Except.map]

theorem exec_decs_of_ok {ws : List (List Bit)} {s : State} {b : List Byte} {corr : Bool}
    (h : decsResult s.params (.words ws) = .ok { out := .bytes b, corr := corr, syn := 0#5 }) :
    exec (.decs (.words ws)) s = .next (withArch s (completedStatus corr 0#5) (some (.bytes b))) := by
  rw [exec_eq_withArch, resultOf, h, statusOfResult, outOfResult]

/-- Legal parameters admit the stream of every byte sequence they admit (00_scope R12). -/
theorem withinLimit_encodeStream {p : Params} (hp : p.Legal) {b : List Byte} (hb : b.length ≤ p.maxLenBytes) :
    withinLimit p.maxDecodeBits (26 * (encodeStream b).length) := by
  obtain ⟨-, -, -, hdecode⟩ := hp
  intro m hm
  have hle := hdecode m hm
  rw [encodeStream_length]
  omega

/-- The same, with no words after it. -/
theorem decsResult_of_received {p : Params} {b : List Byte} {received : List (List Bit)} (hb : b.length < 2 ^ 32)
    (herr : atMostOneErrorEach (encodeStream b) received)
    (hlim : withinLimit p.maxDecodeBits (26 * received.length)) :
    decsResult p (.words received) = .ok { out := .bytes b, corr := anyCorrected received, syn := 0#5 } := by
  have h := decsResult_of_received_append (extra := []) hb herr (by simp) (by rwa [List.append_nil])
  rwa [List.append_nil] at h

/-- Legal parameters keep the length within the header's 32 bits. -/
theorem length_lt_of_legal {p : Params} (hp : p.Legal) {b : List Byte} (hb : b.length ≤ p.maxLenBytes) :
    b.length < 2 ^ 32 := by
  obtain ⟨-, -, hmax, -⟩ := hp
  omega

/-- The stream as sent, with legal parameters: nothing is corrected. -/
theorem decsResult_encodeStream {p : Params} (hp : p.Legal) {b : List Byte} (hb : b.length ≤ p.maxLenBytes) :
    decsResult p (.words (encodeStream b)) = .ok { out := .bytes b, corr := false, syn := 0#5 } := by
  rw [decsResult_of_received (length_lt_of_legal hp hb) (atMostOneErrorEach_refl _) (withinLimit_encodeStream hp hb),
    anyCorrected_encodeStream]

/-- Settles O43: each word decodes to its block of the framed sequence, a changed word has a nonzero syndrome, and
unframing ignores the data of the words appended. -/
theorem streamsRoundTripUnderSingleErrors : Obligations.StreamsRoundTripUnderSingleErrors := by
  unfold Obligations.StreamsRoundTripUnderSingleErrors
  intro b s hp hb
  refine ⟨encodeStream b, exec_encs_of_le hb, ?_, fun received extra herr hextra hlim => ?_⟩
  · rw [exec_decs_of_ok (decsResult_encodeStream hp hb), completedStatus_plain]
  · have hresult := decsResult_of_received_append (length_lt_of_legal hp hb) herr hextra hlim
    refine ⟨_, exec_decs_of_ok hresult, ?_, fun hne => ?_⟩
    · cases anyCorrected (received ++ extra) with
      | false => exact .inl completedStatus_plain
      | true => exact .inr completedStatus_corrected
    · obtain ⟨-, -, hsame⟩ := decode_of_atMostOneErrorEach (chunk26_block_length (frameBits b)) herr
      have hany : anyCorrected received = true := Bool.eq_true_of_not_eq_false (mt hsame hne)
      rw [anyCorrected_append, hany, Bool.true_or, completedStatus_corrected]

/-! ## ENCS on every operand (42_stream R120) -/

/-- Codeword m is the encoding of block m. -/
theorem encodeStream_getD {b : List Byte} {m : Nat} (hm : m < (encodeStream b).length) :
    (encodeStream b).getD m [] = encodeBlock ((chunk26 (frameBits b)).getD m []) := by
  have hm' : m < (chunk26 (frameBits b)).length := by simpa [encodeStream] using hm
  rw [List.getD_eq_getElem _ _ hm, List.getD_eq_getElem _ _ hm']
  simp [encodeStream]

theorem chunk26_getD_length {s : List Bit} {m : Nat} (hm : m < (chunk26 s).length) :
    ((chunk26 s).getD m []).length = 26 := by
  rw [List.getD_eq_getElem _ _ hm]
  exact chunk26_block_length s _ (List.getElem_mem hm)

/-- The first block holds the upper 26 bits of the length, which are zero below 64. -/
theorem encodeStream_first_of_lt {b : List Byte} (hb : b.length < 64) :
    (encodeStream b).getD 0 [] = List.replicate 31 false := by
  have hpos : 0 < (encodeStream b).length := by rw [encodeStream_length]; omega
  have hpos' : 0 < (chunk26 (frameBits b)).length := by simpa [encodeStream] using hpos
  have hblock : (chunk26 (frameBits b)).getD 0 [] = List.replicate 26 false := by
    apply eq_of_getD (by rw [chunk26_getD_length hpos', List.length_replicate])
    intro k hk
    have hk' : k < 26 := by simpa using hk
    have hpow : 2 ^ 6 ≤ 2 ^ (31 - k) := Nat.pow_le_pow_right (by decide) (by omega)
    rw [chunk26_getD hpos' hk', List.getD_replicate _ hk', Nat.mul_zero, Nat.zero_add,
      frameBits_getD_header b (by omega), Nat.testBit_lt_two_pow (by omega)]
  rw [encodeStream_getD hpos, hblock, encodeBlock_zeros]

theorem encodeStream_nil : encodeStream [] = [List.replicate 31 false, List.replicate 31 false] := by decide

/-- The codewords of R120's example. -/
theorem encodeStream_example : encodeStream [0x01#8, 0x02#8, 0x03#8, 0x04#8] =
    [bitsFromInt 0x00000000 31, bitsFromInt 0x29801020 31, bitsFromInt 0x6B820000 31] := by decide

/-- Settles O40: codeword m encodes block m of the framed sequence. -/
theorem encsEncodesTheFramedBlocks : Obligations.EncsEncodesTheFramedBlocks := by
  unfold Obligations.EncsEncodesTheFramedBlocks
  refine ⟨fun b s hb => ⟨frameBits b, encodeStream b, exec_frame_of_le hb, exec_encs_of_le hb,
      encodeStream_length b, fun m hm => ?_, encodeStream_first_of_lt⟩,
    fun b s hb => exec_of_lengthOverflow (encsResult_of_lt _ b hb),
    fun x s hx => exec_of_illegalCommand (encsResult_of_kind _ x hx), fun s hs => ⟨?_, ?_⟩⟩
  · have hm' : m < (chunk26 (frameBits b)).length := by simpa [encodeStream] using hm
    refine ⟨(chunk26 (frameBits b)).getD m [], chunk26_getD_length hm', fun j => chunk26_getD hm', ?_⟩
    rw [encodeStream_getD hm]
    exact exec_encb_of_length (chunk26_getD_length hm') s
  · rw [exec_encs_of_le (by simp), encodeStream_nil]
  · rw [exec_encs_of_le (by simpa using hs), encodeStream_example]

/-! ## DECS on every operand (42_stream R121 to R123) -/

theorem map_decodeBlock_getD {ws : List (List Bit)} {m : Nat} (hm : m < ws.length) :
    (ws.map decodeBlock).getD m ([], 0#5) = decodeBlock (ws.getD m []) := by
  simp [hm]

theorem exec_decs_of_framing {ws : List (List Bit)} {s : State}
    (hlim : withinLimit s.params.maxDecodeBits (26 * ws.length)) (hw : ∀ w ∈ ws, w.length = 31)
    (hu : (decodeData ws).length < 32 + 8 * headerCount (decodeData ws)) :
    exec (.decs (.words ws)) s = .next (withArch s 0x00000002#32 none) := by
  apply exec_of_framing
  rw [resultOf, decsResult_of_within _ ws hlim hw, unframeBits_of_lt hu, Except.map]

/-- DECS of the joined data that is long enough, the status by the decoded words' syndromes. -/
theorem exec_decs_of_unframeBits {ws : List (List Bit)} {s : State} {b : List Byte}
    (hlim : withinLimit s.params.maxDecodeBits (26 * ws.length)) (hw : ∀ w ∈ ws, w.length = 31)
    (hu : unframeBits (decodeData ws) = .ok b) :
    exec (.decs (.words ws)) s = .next (withArch s
      (if ∀ d ∈ ws.map decodeBlock, d.2 = 0#5 then 0x00000008#32 else 0x00000018#32) (some (.bytes b))) := by
  rw [← completedStatus_anyCorrected]
  apply exec_decs_of_ok
  rw [decsResult_of_within _ ws hlim hw, hu, Except.map]

/-- R121's corrected example is R120's with position 31 of the second codeword flipped. -/
theorem atMostOneErrorEach_example : atMostOneErrorEach (encodeStream [0x01#8, 0x02#8, 0x03#8, 0x04#8])
    [bitsFromInt 0x00000000 31, bitsFromInt 0x29801021 31, bitsFromInt 0x6B820000 31] := by
  rw [encodeStream_example]
  exact .cons (.inl rfl) (.cons (.inr ⟨31, by decide, by decide, by decide⟩) (.cons (.inl rfl) .nil))

theorem anyCorrected_example :
    anyCorrected [bitsFromInt 0x00000000 31, bitsFromInt 0x29801021 31, bitsFromInt 0x6B820000 31] = true := by decide

/-- Settles O42: DECS joins the data DECB gives for each word and runs the unframing step on it. -/
theorem decsDecodesAndUnframes : Obligations.DecsDecodesAndUnframes := by
  unfold Obligations.DecsDecodesAndUnframes
  refine ⟨fun ws s hlim hw => ⟨ws.map decodeBlock, List.length_map _, fun m hm => ?_, fun u hu => ?_⟩,
    fun ws s hlim hw => exec_of_malformedWord (decsResult_of_length_ne _ ws hlim hw),
    fun ws m s hm hlt => exec_of_lengthOverflow (decsResult_of_over _ ws (exceeds_eq_true _ m _ hm hlt)),
    fun x s hx => exec_of_illegalCommand (decsResult_of_kind _ x hx), fun s hlim => ⟨?_, ?_⟩⟩
  · have hlen : (ws.getD m []).length = 31 := by
      rw [List.getD_eq_getElem _ _ hm]
      exact hw _ (List.getElem_mem hm)
    rw [map_decodeBlock_getD hm, exec_decb_of_length hlen, completedStatus_syndrome]
    rfl
  · rw [← decodeData_eq_flatten] at hu
    subst hu
    exact ⟨fun h => exec_decs_of_framing hlim hw (by omega), fun _ => exec_decs_of_framing hlim hw,
      fun h => ⟨_, exec_decs_of_unframeBits hlim hw (unframeBits_of_le h), beBytes_length _ _,
        fun k t hk ht => unframed_getLsbD h (by simpa using hk) ht⟩⟩
  · rw [← encodeStream_example, exec_decs_of_ok (decsResult_of_received (by decide)
      (atMostOneErrorEach_refl _) (by rwa [encodeStream_example])), anyCorrected_encodeStream, completedStatus_plain]
  · rw [exec_decs_of_ok (decsResult_of_received (by decide) atMostOneErrorEach_example hlim),
      anyCorrected_example, completedStatus_corrected]

end Sys2Proof.Machine

namespace Sys2Proof.Machine

/-! ## Serialize (42_stream R126) -/

theorem serialize_nil : serialize [] = [] := rfl

theorem serialize_singleton (w : List Bit) : serialize [w] = w.map charOfBit :=
  List.intercalate_singleton

theorem serialize_cons_cons (w v : List Bit) (ws : List (List Bit)) :
    serialize (w :: v :: ws) = w.map charOfBit ++ 0x20#8 :: serialize (v :: ws) := by
  simp [serialize, List.intercalate_cons_cons]

theorem serialize_length {w : List Bit} {ws : List (List Bit)} (h : ∀ v ∈ w :: ws, v.length = 31) :
    (serialize (w :: ws)).length + 1 = 32 * (w :: ws).length := by
  induction ws generalizing w with
  | nil => simp [serialize_singleton, h w]
  | cons v ws ih =>
    obtain ⟨hw, hws⟩ := List.forall_mem_cons.1 h
    have hrest := ih hws
    simp only [serialize_cons_cons, List.length_append, List.length_map, List.length_cons, hw] at hrest ⊢
    omega

/-- Position j of word m's part of the text is position j of the text of the words from m on. -/
theorem serialize_getD_drop {ws : List (List Bit)} (h : ∀ w ∈ ws, w.length = 31) {m : Nat} (hm : m < ws.length)
    (j : Nat) : (serialize ws).getD (32 * m + j) 0#8 = (serialize (ws.drop m)).getD j 0#8 := by
  induction m generalizing ws with
  | zero => simp
  | succ m ih =>
    match ws, hm with
    | w :: v :: ws, hm =>
      obtain ⟨hw, hws⟩ := List.forall_mem_cons.1 h
      have hidx : 32 * (m + 1) + j - (w.map charOfBit).length = 32 * m + j + 1 := by
        rw [List.length_map, hw]
        omega
      rw [serialize_cons_cons, List.getD_append_right _ _ _ _ (by rw [List.length_map, hw]; omega), hidx,
        List.getD_cons_succ, ih hws (by simpa using hm), List.drop_succ_cons]

/-- A nonempty text starts with its first word's characters. -/
theorem serialize_cons_getD (w : List Bit) (ws : List (List Bit)) {k : Nat} (hk : k < w.length) :
    (serialize (w :: ws)).getD k 0#8 = charOfBit (w.getD k false) := by
  cases ws with
  | nil => simp [serialize_singleton, hk]
  | cons v ws =>
    have hk' : k < (w.map charOfBit).length := by simpa using hk
    rw [serialize_cons_cons, List.getD_append _ _ _ _ hk']
    simp [hk]

/-- After the first word's characters comes one space. -/
theorem serialize_cons_cons_getD_length (w v : List Bit) (ws : List (List Bit)) :
    (serialize (w :: v :: ws)).getD w.length 0#8 = 0x20#8 := by
  simp [serialize_cons_cons]

/-- Settles O45: each word but the last takes 32 positions of the text, its 31 characters and a space. -/
theorem serializeWritesTokensAndSingleSpaces : Obligations.SerializeWritesTokensAndSingleSpaces := by
  unfold Obligations.SerializeWritesTokensAndSingleSpaces
  refine ⟨serialize_nil, fun ws hne h => ⟨?_, fun m k hm hk => ?_, fun m hm => ?_⟩⟩
  · obtain ⟨w, ws, rfl⟩ := List.exists_cons_of_ne_nil hne
    have hlen := serialize_length h
    omega
  · have hk' : k < ws[m].length := by rw [h _ (List.getElem_mem hm)]; exact hk
    rw [serialize_getD_drop h hm, List.drop_eq_getElem_cons hm, serialize_cons_getD _ _ hk',
      List.getD_eq_getElem ws [] hm, charOfBit]
  · have hm' : m < ws.length := by omega
    have hlen : ws[m].length = 31 := h _ (List.getElem_mem hm')
    rw [serialize_getD_drop h hm', List.drop_eq_getElem_cons hm', List.drop_eq_getElem_cons hm, ← hlen,
      serialize_cons_cons_getD_length]

/-! ## The tokens of a text (42_stream R127, R128) -/

theorem isSeparator_iff (c : Byte) : isSeparator c = true ↔
    c = 0x20#8 ∨ c = 0x09#8 ∨ c = 0x0A#8 ∨ c = 0x0B#8 ∨ c = 0x0C#8 ∨ c = 0x0D#8 := by
  simp [isSeparator]

/-- Separators with no token begun are skipped. -/
theorem tokens_separators_append {seps : List Byte} (h : ∀ c ∈ seps, isSeparator c = true) (text : List Byte) :
    tokens (seps ++ text) = tokens text := by
  induction seps with
  | nil => rfl
  | cons c seps ih =>
    obtain ⟨hc, hseps⟩ := List.forall_mem_cons.1 h
    rw [← ih hseps]
    simp [tokens, tokensFrom, hc]

/-- A run of other bytes goes on the token begun. -/
theorem tokensFrom_run_append {run : List Byte} (h : ∀ c ∈ run, isSeparator c = false) (cur text : List Byte) :
    tokensFrom cur (run ++ text) = tokensFrom (cur ++ run) text := by
  induction run generalizing cur with
  | nil => simp
  | cons c run ih =>
    obtain ⟨hc, hrun⟩ := List.forall_mem_cons.1 h
    simp [tokensFrom, hc, ih hrun]

/-- A run at the end of a text is its last token, unless it is empty. -/
theorem tokens_run {run : List Byte} (h : ∀ c ∈ run, isSeparator c = false) :
    tokens run = if run = [] then [] else [run] := by
  have hrun := tokensFrom_run_append h [] []
  rwa [List.append_nil, List.nil_append] at hrun

/-- A run followed by a separator is a token. -/
theorem tokens_run_append_separator {run : List Byte} (hne : run ≠ []) (h : ∀ c ∈ run, isSeparator c = false)
    {c : Byte} (hc : isSeparator c = true) (text : List Byte) : tokens (run ++ c :: text) = run :: tokens text := by
  rw [tokens, tokensFrom_run_append h, List.nil_append]
  simp [tokensFrom, hc, hne, tokens]

/-- Settles O46, by induction on the runs. -/
theorem tokensAreTheMaximalRuns : Obligations.TokensAreTheMaximalRuns := by
  unfold Obligations.TokensAreTheMaximalRuns
  refine ⟨isSeparator_iff, fun lead last runs hlead hlast hruns => ?_⟩
  rw [List.append_assoc, tokens_separators_append hlead]
  induction runs with
  | nil => exact tokens_run hlast
  | cons r runs ih =>
    obtain ⟨⟨hrun, hseps, hrun', hseps'⟩, hruns'⟩ := List.forall_mem_cons.1 hruns
    obtain ⟨c, seps, hr⟩ := List.exists_cons_of_ne_nil hseps
    rw [hr] at hseps'
    obtain ⟨hc, hseps''⟩ := List.forall_mem_cons.1 hseps'
    rw [List.map_cons, List.flatten_cons, hr, List.append_assoc, List.append_assoc, List.cons_append,
      tokens_run_append_separator hrun hrun' hc, tokens_separators_append hseps'', ih hruns', List.map_cons,
      List.cons_append]

/-! ## Parse (42_stream R127, R129) -/

section MapM

variable {α β : Type} {f : α → Option β} {l : List α}

theorem mapM_eq_some_map {g : α → β} (h : ∀ a ∈ l, f a = some (g a)) : l.mapM f = some (l.map g) := by
  induction l with
  | nil => rfl
  | cons a l ih =>
    obtain ⟨ha, hl⟩ := List.forall_mem_cons.1 h
    simp [List.mapM_cons, ha, ih hl]

theorem mapM_eq_none (h : ∃ a ∈ l, f a = none) : l.mapM f = none := by
  induction l with
  | nil => simp at h
  | cons a l ih =>
    rw [List.mapM_cons]
    cases ha : f a with
    | none => rfl
    | some b =>
      have hl : ∃ a ∈ l, f a = none := by simpa [ha] using h
      simp [ih hl]

end MapM

theorem bitOfChar_of_binary {c : Byte} (h : c = 0x30#8 ∨ c = 0x31#8) : bitOfChar c = some (c == 0x31#8) := by
  obtain rfl | rfl := h <;> rfl

theorem bitOfChar_of_other {c : Byte} (h0 : c ≠ 0x30#8) (h1 : c ≠ 0x31#8) : bitOfChar c = none := by
  simp [bitOfChar, h0, h1]

theorem parseToken_of_binary {t : List Byte} (hlen : t.length = 31) (h : ∀ c ∈ t, c = 0x30#8 ∨ c = 0x31#8) :
    parseToken t = some (t.map fun c => c == 0x31#8) := by
  rw [parseToken, if_pos hlen, mapM_eq_some_map fun c hc => bitOfChar_of_binary (h c hc)]

theorem parseToken_of_bad {t : List Byte} (h : t.length ≠ 31 ∨ ∃ c ∈ t, c ≠ 0x30#8 ∧ c ≠ 0x31#8) :
    parseToken t = none := by
  rw [parseToken]
  split
  next hlen =>
    obtain ⟨c, hc, h0, h1⟩ := h.resolve_left (not_not.2 hlen)
    exact mapM_eq_none ⟨c, hc, bitOfChar_of_other h0 h1⟩
  next => rfl

theorem parseText_of_binary {text : List Byte}
    (h : ∀ t ∈ tokens text, t.length = 31 ∧ ∀ c ∈ t, c = 0x30#8 ∨ c = 0x31#8) :
    parseText text = some ((tokens text).map fun t => t.map fun c => c == 0x31#8) :=
  mapM_eq_some_map fun t ht => parseToken_of_binary (h t ht).1 (h t ht).2

theorem parseText_of_bad {text : List Byte}
    (h : ∃ t ∈ tokens text, t.length ≠ 31 ∨ ∃ c ∈ t, c ≠ 0x30#8 ∧ c ≠ 0x31#8) : parseText text = none := by
  obtain ⟨t, ht, hbad⟩ := h
  exact mapM_eq_none ⟨t, ht, parseToken_of_bad hbad⟩

/-- Settles O47: a token parses exactly when it is binary, and a text when all its tokens do. -/
theorem parseAcceptsExactlyTheBinaryTokens : Obligations.ParseAcceptsExactlyTheBinaryTokens := by
  unfold Obligations.ParseAcceptsExactlyTheBinaryTokens
  exact fun text => ⟨parseText_of_binary, parseText_of_bad⟩

theorem decodeText_of_parseText_eq_none {text : List Byte} (h : parseText text = none) (s : State) :
    decodeText text s = .next { state := s, result := .error .formatError } := by
  rw [decodeText, h]

/-- Settles O48: a text with a bad token does not parse. -/
theorem formatErrorIssuesNoCommand : Obligations.FormatErrorIssuesNoCommand := by
  unfold Obligations.FormatErrorIssuesNoCommand
  exact fun text s h => decodeText_of_parseText_eq_none (parseText_of_bad h) s

/-! ## Parse inverts Serialize -/

theorem charOfBit_binary (b : Bit) : charOfBit b = 0x30#8 ∨ charOfBit b = 0x31#8 := by
  cases b <;> decide

theorem charOfBit_eq_one (b : Bit) : (charOfBit b == 0x31#8) = b := by
  cases b <;> rfl

theorem isSeparator_charOfBit (b : Bit) : isSeparator (charOfBit b) = false := by
  cases b <;> decide

theorem tokens_serialize {ws : List (List Bit)} (h : ∀ w ∈ ws, w ≠ []) :
    tokens (serialize ws) = ws.map fun w => w.map charOfBit := by
  have hchars : ∀ w : List Bit, ∀ c ∈ w.map charOfBit, isSeparator c = false :=
    fun w => List.forall_mem_map.2 fun b _ => isSeparator_charOfBit b
  induction ws with
  | nil => rfl
  | cons w ws ih =>
    obtain ⟨hw, hws⟩ := List.forall_mem_cons.1 h
    have hne : w.map charOfBit ≠ [] := mt List.map_eq_nil_iff.1 hw
    cases ws with
    | nil => rw [serialize_singleton, tokens_run (hchars w), if_neg hne, List.map_cons, List.map_nil]
    | cons v ws =>
      rw [serialize_cons_cons, tokens_run_append_separator hne (hchars w) (by decide), ih hws]
      rfl

theorem parseText_serialize {ws : List (List Bit)} (h : ∀ w ∈ ws, w.length = 31) :
    parseText (serialize ws) = some ws := by
  have htokens : tokens (serialize ws) = ws.map fun w => w.map charOfBit :=
    tokens_serialize fun w hw => List.ne_nil_of_length_pos (by rw [h w hw]; decide)
  rw [parseText_of_binary, htokens]
  · simp [Function.comp_def, charOfBit_eq_one]
  · rw [htokens, List.forall_mem_map]
    exact fun w hw => ⟨by rw [List.length_map, h w hw], List.forall_mem_map.2 fun b _ => charOfBit_binary b⟩

/-! ## The text paths (42_stream R130, R131) -/

theorem resultOfIssue_encode (p : Params) (i : Instr) :
    resultOfIssue p (encode i).1 (encode i).2 = resultOf p i := by
  rw [resultOfIssue, decode_encode]

/-- An `Issue` leaves the parameters and the command's OUT. -/
theorem issue_encode (i : Instr) (s : State) :
    ∃ t, issue (encode i).1 (encode i).2 s = .next t ∧ t.params = s.params ∧
      t.out = outOfResult (resultOf s.params i) := by
  refine ⟨_, issue_eq _ _ s, rfl, ?_⟩
  rw [resultOfIssue_encode]

theorem issueThen_of_issue {w : Word} {x : Value} {s t : State} (h : issue w x s = .next t)
    (f : State → Except TextError (List Byte)) : issueThen w x s f = .next { state := t, result := f t } := by
  rw [issueThen, h]

theorem encodeText_of_issue {b : List Byte} {s t : State} (h : issue 0x00000004#32 (.bytes b) s = .next t) :
    encodeText b s = .next { state := t, result := textOfOut t } :=
  issueThen_of_issue h textOfOut

theorem decodeText_of_issue {text : List Byte} {ws : List (List Bit)} (hparse : parseText text = some ws) {s t : State}
    (h : issue 0x00000005#32 (.words ws) s = .next t) :
    decodeText text s = .next { state := t, result := bytesOfOut t } := by
  rw [decodeText, hparse]
  exact issueThen_of_issue h bytesOfOut

theorem textOfOut_of_words {t : State} {ws : List (List Bit)} (h : t.out = some (.words ws)) :
    textOfOut t = .ok (serialize ws) := by
  rw [textOfOut, h]

theorem textOfOut_of_none {t : State} (h : t.out = none) :
    textOfOut t = .error (.commandFailed (errField t.status)) := by
  rw [textOfOut, h]

theorem bytesOfOut_of_bytes {t : State} {b : List Byte} (h : t.out = some (.bytes b)) : bytesOfOut t = .ok b := by
  rw [bytesOfOut, h]

theorem bytesOfOut_of_none {t : State} (h : t.out = none) :
    bytesOfOut t = .error (.commandFailed (errField t.status)) := by
  rw [bytesOfOut, h]

/-- A command that ends well leaves no result or one that fits its word. -/
theorem outOfResult_of_endsWell {w : Word} {r : CommandResult} (h : EndsWell w r) :
    (∃ v, outOfResult r = some v ∧ resultFits w v = true) ∨ outOfResult r = none := by
  cases r with
  | ok c => exact .inl ⟨c.out, rfl, h.result⟩
  | error e => exact .inr rfl

theorem words_of_resultFits {v : Value} (h : resultFits 4#32 v = true) : ∃ ws, v = .words ws := by
  cases v with
  | words ws => exact ⟨ws, rfl⟩
  | bits s => cases h
  | bytes b => cases h

theorem bytes_of_resultFits {v : Value} (h : resultFits 5#32 v = true) : ∃ b, v = .bytes b := by
  cases v with
  | bytes b => exact ⟨b, rfl⟩
  | bits s => cases h
  | words ws => cases h

/-- Settles O49: the command leaves a result of its own kind, which the text function hands on, or none. -/
theorem textPathsIssueTheStreamCommands : Obligations.TextPathsIssueTheStreamCommands := by
  unfold Obligations.TextPathsIssueTheStreamCommands
  refine ⟨fun b s => ?_, fun text ws s hparse => ?_⟩
  · obtain ⟨t, ht, -, hout⟩ := issue_encode (.encs (.bytes b)) s
    refine ⟨t, ht, ?_⟩
    rw [encodeText_of_issue ht, hout]
    obtain ⟨v, h, hfits⟩ | h := outOfResult_of_endsWell (encsResult_endsWell s.params (.bytes b))
    · obtain ⟨ws, rfl⟩ := words_of_resultFits hfits
      exact .inl ⟨ws, h, by rw [textOfOut_of_words (hout.trans h)]⟩
    · exact .inr ⟨h, by rw [textOfOut_of_none (hout.trans h)]⟩
  · obtain ⟨t, ht, -, hout⟩ := issue_encode (.decs (.words ws)) s
    refine ⟨t, ht, ?_⟩
    rw [decodeText_of_issue hparse ht, hout]
    obtain ⟨v, h, hfits⟩ | h := outOfResult_of_endsWell (decsResult_endsWell s.params (.words ws))
    · obtain ⟨b, rfl⟩ := bytes_of_resultFits hfits
      exact .inl ⟨b, h, by rw [bytesOfOut_of_bytes (hout.trans h)]⟩
    · exact .inr ⟨h, by rw [bytesOfOut_of_none (hout.trans h)]⟩

/-- Settles O50: Parse gives back the words Serialize wrote, and DECS of ENCS's words gives back the bytes. -/
theorem textRoundTrips : Obligations.TextRoundTrips := by
  unfold Obligations.TextRoundTrips
  intro b s hp hb
  obtain ⟨t, ht, hparams, hwords⟩ := issue_encode (.encs (.bytes b)) s
  obtain ⟨u, hu, -, hbytes⟩ := issue_encode (.decs (.words (encodeStream b))) t
  rw [resultOf, encsResult_of_le _ b hb, outOfResult] at hwords
  rw [resultOf, hparams, decsResult_encodeStream hp hb, outOfResult] at hbytes
  refine ⟨serialize (encodeStream b), t, u, ?_, ?_⟩
  · rw [encodeText_of_issue ht, textOfOut_of_words hwords]
  · rw [decodeText_of_issue (parseText_serialize (encodeStream_word_length b)) hu, bytesOfOut_of_bytes hbytes]

end Sys2Proof.Machine

namespace Sys2Proof.Machine

/-! ## The first failing check (60_exceptions R149) -/

/-- The commands whose operand has the kind R61 asks for. -/
inductive HasRequiredKind : Instr → Prop where
  | encb (d : List Bit) : HasRequiredKind (.encb (.bits d))
  | decb (w : List Bit) : HasRequiredKind (.decb (.bits w))
  | frame (b : List Byte) : HasRequiredKind (.frame (.bytes b))
  | unframe (u : List Bit) : HasRequiredKind (.unframe (.bits u))
  | encs (b : List Byte) : HasRequiredKind (.encs (.bytes b))
  | decs (ws : List (List Bit)) : HasRequiredKind (.decs (.words ws))

theorem kind_eq_bits_iff {x : Value} : x.kind = .bits ↔ ∃ s, x = .bits s := by
  cases x <;> simp [Value.kind]

theorem kind_eq_bytes_iff {x : Value} : x.kind = .bytes ↔ ∃ b, x = .bytes b := by
  cases x <;> simp [Value.kind]

theorem kind_eq_words_iff {x : Value} : x.kind = .words ↔ ∃ ws, x = .words ws := by
  cases x <;> simp [Value.kind]

theorem hasRequiredKind_of_operandKind {i : Instr} {k : Kind} (hk : i.operandKind = some k)
    (hx : i.operand.kind = k) : HasRequiredKind i := by
  cases i with
  | encb x => cases hk; obtain ⟨d, rfl⟩ := kind_eq_bits_iff.1 hx; exact .encb d
  | decb x => cases hk; obtain ⟨w, rfl⟩ := kind_eq_bits_iff.1 hx; exact .decb w
  | frame x => cases hk; obtain ⟨b, rfl⟩ := kind_eq_bytes_iff.1 hx; exact .frame b
  | unframe x => cases hk; obtain ⟨u, rfl⟩ := kind_eq_bits_iff.1 hx; exact .unframe u
  | encs x => cases hk; obtain ⟨b, rfl⟩ := kind_eq_bytes_iff.1 hx; exact .encs b
  | decs x => cases hk; obtain ⟨ws, rfl⟩ := kind_eq_words_iff.1 hx; exact .decs ws
  | reserved6 x => cases hk
  | reserved7 x => cases hk

theorem withinLimit_of_exceeds_eq_false {limit : Option Nat} {n : Nat} (h : exceeds limit n = false) :
    withinLimit limit n :=
  withinLimit_of_exceeds (by simp [h])

section Ranks

variable {p : Params} {i : Instr} (hi : HasRequiredKind i)
include hi

/-- The size limit comes before the lengths (60_exceptions R146, R149). -/
theorem resultOf_of_overLimit (hover : overLimit p i = true) : resultOf p i = .error .lengthOverflow := by
  cases hi with
  | encb d => cases hover
  | decb w => cases hover
  | frame b => exact frameResult_of_lt p b (of_decide_eq_true hover)
  | unframe u => exact unframeResult_of_over p u hover
  | encs b => exact encsResult_of_lt p b (of_decide_eq_true hover)
  | decs ws => exact decsResult_of_over p ws hover

/-- Within the size limit a wrong length is MALFORMED_WORD, whatever the bits (60_exceptions R141, R149). -/
theorem resultOf_of_lengthOk_eq_false (hlim : overLimit p i = false) (hlen : i.lengthOk = false) :
    resultOf p i = .error .malformedWord := by
  cases hi with
  | encb d => exact encbResult_of_length_ne d (by simpa [Instr.lengthOk] using hlen)
  | decb w => exact decbResult_of_length_ne w (by simpa [Instr.lengthOk] using hlen)
  | frame b => cases hlen
  | unframe u => cases hlen
  | encs b => cases hlen
  | decs ws =>
    exact decsResult_of_length_ne p ws (withinLimit_of_exceeds_eq_false hlim) (by simpa [Instr.lengthOk] using hlen)

/-- A command that unframes nothing has no check after the lengths. -/
theorem resultOf_of_unframedBits_eq_none (hlim : overLimit p i = false) (hlen : i.lengthOk = true)
    (hu : unframedBits i = none) : ∃ c, resultOf p i = .ok c := by
  cases hi with
  | encb d => exact ⟨_, encbResult_of_length d (by simpa [Instr.lengthOk] using hlen)⟩
  | decb w => exact ⟨_, decbResult_of_length w (by simpa [Instr.lengthOk] using hlen)⟩
  | frame b => exact ⟨_, frameResult_of_le p b (Nat.not_lt.1 (of_decide_eq_false hlim))⟩
  | encs b => exact ⟨_, encsResult_of_le p b (Nat.not_lt.1 (of_decide_eq_false hlim))⟩
  | unframe u => cases hu
  | decs ws => cases hu

/-- A command that unframes ends, after its other checks, as the unframing step does. -/
theorem resultOf_of_unframedBits_eq_some {u : List Bit} (hlim : overLimit p i = false) (hlen : i.lengthOk = true)
    (hu : unframedBits i = some u) : ∃ f, resultOf p i = (unframeBits u).map f := by
  cases hi with
  | unframe v =>
    cases hu
    exact ⟨_, unframeResult_of_within p u (withinLimit_of_exceeds_eq_false hlim)⟩
  | decs ws =>
    cases hu
    have hwords : ∀ w ∈ ws, w.length = 31 := by simpa [Instr.lengthOk] using hlen
    exact ⟨_, decsResult_of_within p ws (withinLimit_of_exceeds_eq_false hlim) hwords⟩
  | encb d => cases hu
  | decb w => cases hu
  | frame b => cases hu
  | encs b => cases hu

end Ranks

theorem errField_of_error {r : CommandResult} {e : ErrorKind} (h : r = .error e) :
    errField (statusOfResult r) = e.code := by
  subst h
  exact errField_statusWord ..

theorem errField_of_ok {r : CommandResult} (h : ∃ c, r = .ok c) : errField (statusOfResult r) = 0b000#3 := by
  obtain ⟨c, rfl⟩ := h
  exact errField_statusWord ..

/-- Too few bits for the header or for what it declares end an unframing command in FRAMING (60_exceptions R142). -/
theorem map_unframeBits_of_lt {u : List Bit} (f : List Byte → Completion) (h : u.length < 32 + 8 * headerCount u) :
    (unframeBits u).map f = .error .framing := by
  rw [unframeBits_of_lt h, Except.map]

theorem map_unframeBits_of_le {u : List Bit} (f : List Byte → Completion) (h : 32 + 8 * headerCount u ≤ u.length) :
    ∃ c, (unframeBits u).map f = .ok c := by
  rw [unframeBits_of_le h]
  exact ⟨_, rfl⟩

/-- A decoded command has the operand the word came with. -/
theorem operand_of_decode {w : Word} {x : Value} {i : Instr} (h : decode w x = .ok i) : i.operand = x := by
  obtain ⟨-, -, hoperand⟩ := encodingIsPlain i
  rw [← hoperand, encode_of_decode h]

theorem resultOfIssue_of_decode (p : Params) {w : Word} {x : Value} {i : Instr} (h : decode w x = .ok i) :
    resultOfIssue p w x = resultOf p i := by
  rw [resultOfIssue, h]

/-- Settles O22: each rank of the table in its order, the last two from the unframing step. -/
theorem firstFailingCheckDecidesTheError : Obligations.FirstFailingCheckDecidesTheError := by
  unfold Obligations.FirstFailingCheckDecidesTheError
  intro s w x
  refine ⟨_, issue_eq w x s, fun hrsv => ?_, fun _ hop => ?_, fun i k hdecode hk => ?_⟩
  · exact errField_of_error (resultOfIssue_of_rsvField_ne_zero s.params x hrsv)
  · exact errField_of_error (resultOfIssue_of_reservedOp s.params x hop)
  obtain rfl := operand_of_decode hdecode
  rw [resultOfIssue_of_decode s.params hdecode]
  refine ⟨fun hne => errField_of_error (resultOf_of_kind_ne s.params hk hne), fun hkind => ?_⟩
  have hi := hasRequiredKind_of_operandKind hk hkind
  refine ⟨fun hover => errField_of_error (resultOf_of_overLimit hi hover), fun hlim => ?_⟩
  refine ⟨fun hlen => errField_of_error (resultOf_of_lengthOk_eq_false hi hlim hlen), fun hlen => ?_⟩
  refine ⟨fun hnone => errField_of_ok (resultOf_of_unframedBits_eq_none hi hlim hlen hnone), fun u hu => ?_⟩
  obtain ⟨f, hf⟩ := resultOf_of_unframedBits_eq_some hi hlim hlen hu
  rw [hf]
  exact ⟨fun hlt => errField_of_error (map_unframeBits_of_lt f (by omega)),
    fun _ hlt => errField_of_error (map_unframeBits_of_lt f hlt),
    fun hle => errField_of_ok (map_unframeBits_of_le f hle)⟩

/-! ## The codes an issued word can leave (60_exceptions R143, 10_state R27) -/

theorem EndsWell.ne_syndromeRange {w : Word} {r : CommandResult} (h : EndsWell w r) : r ≠ .error .syndromeRange := by
  rintro rfl
  exact h rfl

/-- No command raises SYNDROME_RANGE, whether its parameters are legal or not. -/
theorem resultOf_ne_syndromeRange (p : Params) (i : Instr) : resultOf p i ≠ .error .syndromeRange := by
  cases i with
  | encb x => exact (encbResult_endsWell x).ne_syndromeRange
  | decb x => exact (decbResult_endsWell x).ne_syndromeRange
  | frame x =>
    cases x with
    | bytes b =>
      by_cases hle : b.length ≤ p.maxLenBytes
      · rw [resultOf, frameResult_of_le p b hle]; nofun
      · rw [resultOf, frameResult_of_lt p b (Nat.lt_of_not_le hle)]; nofun
    | bits s => nofun
    | words ws => nofun
  | unframe x => exact (unframeResult_endsWell p x).ne_syndromeRange
  | encs x => exact (encsResult_endsWell p x).ne_syndromeRange
  | decs x => exact (decsResult_endsWell p x).ne_syndromeRange
  | reserved6 x => nofun
  | reserved7 x => nofun

theorem resultOfIssue_ne_syndromeRange (p : Params) (w : Word) (x : Value) :
    resultOfIssue p w x ≠ .error .syndromeRange := by
  unfold resultOfIssue
  cases decode w x with
  | ok i => exact resultOf_ne_syndromeRange p i
  | error e => cases e; nofun

/-- The codes 110 and 111 stand for no error, and 011 for SYNDROME_RANGE alone. -/
theorem errField_of_ne_syndromeRange {r : CommandResult} (h : r ≠ .error .syndromeRange) :
    errField (statusOfResult r) ≠ 0b011#3 ∧ errField (statusOfResult r) ≠ 0b110#3 ∧
      errField (statusOfResult r) ≠ 0b111#3 := by
  cases r with
  | ok c => rw [errField_of_ok ⟨c, rfl⟩]; decide
  | error e =>
    rw [errField_of_error rfl]
    cases e with
    | syndromeRange => exact absurd rfl h
    | malformedWord | framing | illegalCommand | lengthOverflow => decide

/-- Settles O19: no issued word ends in SYNDROME_RANGE, and a syndrome has 5 bits. -/
theorem syndromeRangeIsNeverRaised : Obligations.SyndromeRangeIsNeverRaised := by
  unfold Obligations.SyndromeRangeIsNeverRaised
  exact ⟨fun s w x => ⟨_, issue_eq w x s, errField_of_ne_syndromeRange (resultOfIssue_ne_syndromeRange s.params w x)⟩,
    fun w => Nat.le_of_lt_succ (syndrome w).isLt⟩

/-! ## Error entry (60_exceptions R145) -/

/-- Settles O21: a command that completes leaves ERR = 000, and one that does not raises one error. -/
theorem errorEntryWritesCodeAndNone : Obligations.ErrorEntryWritesCodeAndNone := by
  unfold Obligations.ErrorEntryWritesCodeAndNone
  intro i s
  refine ⟨_, exec_eq_withArch i s, fun herr => ?_⟩
  cases hr : resultOf s.params i with
  | ok c =>
    rw [hr] at herr
    exact absurd (errField_of_ok ⟨c, rfl⟩) herr
  | error e =>
    refine ⟨e, errField_of_error rfl, ?_, validField_statusWord .., corrField_statusWord .., synField_statusWord ..⟩
    rw [statusOfResult, errorStatus_code, outOfResult]

/-! ## Steps and the trace (60_exceptions R152, R157) -/

/-- Settles O12, by the kind of the interaction. -/
theorem stepMakesTheOldestInteraction : Obligations.StepMakesTheOldestInteraction := by
  unfold Obligations.StepMakesTheOldestInteraction
  intro s a rest hinbox
  rw [step_cons s a rest hinbox]
  cases a with
  | issue w x => exact ⟨_, issue_eq w x _, issue_eq w x _, rfl, rfl, rfl⟩
  | read p => exact ⟨_, interact_read p _, interact_read p _, rfl, rfl, rfl⟩
  | reset => exact ⟨_, interact_reset _, interact_reset _, rfl, rfl, rfl⟩

/-- Every step takes a next state, and its trace extends the one before. -/
theorem step_extends_trace (s : State) : ∃ t, step s = .next t ∧ s.trace <+: t.trace := by
  cases hinbox : s.inbox with
  | nil => exact ⟨s, step_nil s hinbox, [], List.append_nil _⟩
  | cons a rest =>
    obtain ⟨t, hstep, -, -, -, htrace⟩ := stepMakesTheOldestInteraction s a rest hinbox
    exact ⟨t, hstep, _, htrace.symm⟩

theorem run_succ_of_step {s t : State} (h : step s = .next t) (n : Nat) :
    Host.Core.run core (n + 1) s = Host.Core.run core n t := by
  have hcore : core.step s = .next t := h
  simp only [Host.Core.run, hcore]

/-- Settles O24, by induction on the number of steps. -/
theorem theTraceIsNeverRewritten : Obligations.TheTraceIsNeverRewritten := by
  unfold Obligations.TheTraceIsNeverRewritten
  intro n
  induction n with
  | zero => exact fun s => ⟨s, rfl, [], List.append_nil _⟩
  | succ n ih =>
    intro s
    obtain ⟨t, hstep, hfirst⟩ := step_extends_trace s
    obtain ⟨u, hrun, hrest⟩ := ih t
    exact ⟨u, (run_succ_of_step hstep n).trans hrun, hfirst.trans hrest⟩

end Sys2Proof.Machine

namespace Sys2Proof.Machine

/-! ## Runs that make every pending interaction (70_reset R177) -/

/-- A run with one step for each pending interaction makes them all, each with one entry in the trace. -/
theorem run_pending (pending : List HostAction) (s : State) (h : s.inbox = pending) :
    ∃ t : State, Host.Core.run core pending.length s = .next t ∧
      t.inbox = [] ∧ t.trace.length = s.trace.length + pending.length ∧ t.params = s.params := by
  induction pending generalizing s with
  | nil => exact ⟨s, rfl, h, rfl, rfl⟩
  | cons a rest ih =>
    obtain ⟨t, hstep, -, hinbox, hparams, htrace⟩ := stepMakesTheOldestInteraction s a rest h
    obtain ⟨u, hrun, hempty, hlength, hparams'⟩ := ih t hinbox
    refine ⟨u, (run_succ_of_step hstep _).trans hrun, hempty, ?_, hparams'.trans hparams⟩
    rw [hlength, htrace, List.length_append, List.length_singleton, List.length_cons]
    omega

/-- Settles O23, by induction on the pending interactions. -/
theorem everyPendingInteractionIsMade : Obligations.EveryPendingInteractionIsMade := by
  unfold Obligations.EveryPendingInteractionIsMade
  exact fun s => run_pending s.inbox s rfl

/-! ## Reset (70_reset R170) -/

@[simp] theorem archState_resetWith (p : Params) : archState (State.resetWith p) = (0#32, 0#32, none) := rfl

@[simp] theorem archState_answerReset (s : State) : archState (answerReset s) = (0#32, 0#32, none) := rfl

/-- The reset value of `STATUS` is the status word whose fields are all 0 (10_state R37). -/
theorem statusWord_zero : statusWord 0b000#3 false false 0b00000#5 = 0#32 := by decide

theorem fields_zero : errField 0#32 = 0b000#3 ∧ validField 0#32 = false ∧ corrField 0#32 = false ∧
    synField 0#32 = 0b00000#5 := by
  rw [← statusWord_zero]
  exact ⟨errField_statusWord .., validField_statusWord .., corrField_statusWord .., synField_statusWord ..⟩

/-- Settles O7: both ways into reset leave the three registers at 0, 0 and none, and the zero status word has zero
fields. -/
theorem resetPutsEveryRegisterToItsResetValue : Obligations.ResetPutsEveryRegisterToItsResetValue := by
  unfold Obligations.ResetPutsEveryRegisterToItsResetValue
  obtain ⟨herr, hvalid, hcorr, hsyn⟩ := fields_zero
  exact ⟨archState_resetWith, herr, hvalid, hcorr, hsyn, rfl, ascendingDataPositions_eq.symm,
    fun s => ⟨_, interact_reset s, archState_answerReset s⟩⟩

theorem params_default_legal : Params.default.Legal := by decide

theorem inv_resetWith {p : Params} (hp : p.Legal) : Inv (State.resetWith p) :=
  ⟨hp, coherent_reset, rfl⟩

/-- Settles O8: the reset registers are coherent and the trace is empty; `State.reset` has the default parameters. -/
theorem invariantHoldsAfterReset : Obligations.InvariantHoldsAfterReset := by
  unfold Obligations.InvariantHoldsAfterReset
  exact ⟨fun _ => inv_resetWith, inv_resetWith params_default_legal⟩

end Sys2Proof.Machine

namespace Sys2Proof.Machine

/-! ## The idle step (SPEC log 3) -/

/-- Settles O10 by the model's equation for a step with an empty inbox. -/
theorem nothingHappensUntilTheHostActs : Obligations.NothingHappensUntilTheHostActs := by
  unfold Obligations.NothingHappensUntilTheHostActs
  exact step_nil

end Sys2Proof.Machine
